-- ==== Sys2Proof/Word.lean ====
section
/-! DEFINITION. The widths of the block: micro-op words, bytes, word fields (`spec/00_scope.md` R5,
`spec/10_state.md` R36). -/

namespace Sys2Proof

/-- A micro-op word (R80). -/
abbrev Word := BitVec 32

/-- A byte of the image (R50). -/
abbrev Byte := BitVec 8

/-- A register identifier, 0..63 (R31). -/
abbrev Reg6 := BitVec 6

/-- A jump-condition code, 0..15 (R93). -/
abbrev Cond4 := BitVec 4

/-- A size-override code, 0..7 (R92). -/
abbrev Size3 := BitVec 3

/-- The encodable ALU kinds (R36, R91, C3): codes 16..29 and "not applicable" have no member. -/
inductive AluKind where
  | bin (k : BitVec 4)
  | load
  | store
deriving DecidableEq, Repr, Inhabited

end Sys2Proof
end

