-- ==== Sys2Proof/Syntax.lean ====
section
/-! DEFINITION. The micro-operations the block encodes: one constructor per row of
`spec/opcode_table.json`. Immediates are unbounded integers (R36); the range check is the encoder's. -/

namespace Sys2Proof

/-- `MicroOp` (R36) and the constant `NOP` (R116), as the builder hands them over (R201). -/
inductive Instr where
  /-- `AluReg`, ALU register-operand op (R81, R111). -/
  | alur (kind : AluKind) (srcA srcB dest : Reg6) (uf eoi adv : Bool) (size : Size3)
  /-- `AluImm`, ALU immediate-operand op (R82, R112). -/
  | alui (kind : AluKind) (srcA : Reg6) (imm : Int) (dest : Reg6) (uf eoi adv : Bool) (size : Size3)
  /-- `LoadConst` (R83, R113). -/
  | ldc (dest : Reg6) (imm : Int)
  /-- `JmpImm`, relative jump with immediate offset in micro-op words (R84, R114). -/
  | ji (creg : Reg6) (cond : Cond4) (off : Int)
  /-- `JmpReg`, relative jump with register offset (R85, R115). -/
  | jr (creg : Reg6) (cond : Cond4) (oreg : Reg6)
  /-- `NOP`, the canonical no-operation (R97, R116). -/
  | nop
deriving DecidableEq, Repr, Inhabited

end Sys2Proof
end

