-- ==== Sys2Proof/Config.lean ====
section
/-! DEFINITION. What a configuration of the block fixes (the record `CFG`, `spec/00_scope.md` R6), the
interface types it speaks of, and the free values. `Cfg` is plain data that `State` carries; the opaque
constants have no body, so no proof can see what they are. -/

namespace Sys2Proof

/-! ### Interface types -/

/-- `SlotId` (R39): the name of one builder call's reserved place in the image. -/
inductive SlotId where
  /-- register-register table -/
  | rr (c : Fin 32)
  /-- register-immediate table -/
  | ri (c : Fin 32)
  /-- control-register read -/
  | crr
  /-- control-register write -/
  | crw
  /-- interrupt/exception services -/
  | svc (s : Fin 16)
  /-- memory-immediate table -/
  | mi (m : Fin 8) (c : Fin 32)
  /-- register-memory table -/
  | rm (m : Fin 8) (c : Fin 32)
  /-- memory-register table -/
  | mr (m : Fin 8) (c : Fin 32)
  /-- jump/call family -/
  | jc (s : Fin 16)
  /-- miscellaneous operations -/
  | misc (s : Fin 16)
deriving DecidableEq, Repr, Inhabited

/-- `REV`, the architecture revision (R27). -/
inductive Rev where
  | narrow
  | wide
deriving DecidableEq, Repr, Inhabited

/-- `Descriptor` (R38). `alu = none` is `NotApplicable` (C3). -/
structure Descriptor where
  code : Fin 32
  alu : Option AluKind
  /-- updates-flags? -/
  uf : Bool
  /-- sign-extends-narrower-operand? -/
  sx : Bool
  /-- stores-result-in-first-operand? -/
  st : Bool
deriving DecidableEq, Repr, Inhabited

/-- The contents of the descriptor ROM: 32 entries, each a descriptor or `none` (R140). -/
abbrev DescriptorTable := Vector (Option Descriptor) 32

/-- The abort causes (R24, R250). -/
inductive AbortCause where
  | encodingRange
  | layoutMismatch
deriving DecidableEq, Repr, Inhabited

/-- What an abort names as offending (R24). -/
inductive AbortField where
  | imm7
  | imm24
  | imm14
  | length
  | overlap
deriving DecidableEq, Repr, Inhabited

/-- `ABORT_REC` (R24). -/
structure AbortRec where
  cause : AbortCause
  slot : SlotId
  opIndex : Nat
  field : AbortField
  value : Int
deriving DecidableEq, Repr, Inhabited

/-- `EncodingRange{field, value}` as unit ENC answers it (R118). -/
structure RangeFailure where
  field : AbortField
  value : Int
deriving DecidableEq, Repr, Inhabited

/-- What a builder call returns when it returns a program (R200, R203). The label goes to the host's
log and is read by nothing. -/
structure BuildResult where
  program : List Instr
  label : String
deriving DecidableEq, Repr, Inhabited

/-- A builder's answers for one slot: the same under both revisions, or one for each (R228 says which
builders read the revision). `none` is the empty/no-label result (R204). -/
inductive BuilderAnswer where
  | anyRev (r : Option BuildResult)
  | perRev (narrow wide : Option BuildResult)
deriving DecidableEq, Repr, Inhabited

/-- One row of the builder function as data: the slot, the descriptor table it answers for (`none`:
whatever the table), and the answers (R200). -/
structure BuilderEntry where
  slot : SlotId
  table : Option DescriptorTable
  answer : BuilderAnswer
deriving DecidableEq, Repr, Inhabited

/-! ### Names the configuration numbers -/

/-- The register names the document gives (R32). -/
inductive RegName where
  | general (n : Nat) | scratch (n : Nat)
  | instructionPointer | flags
  | interruptVector | interruptStack | interruptMask | interruptPending | interruptCause
  | interruptData | privilege | cacheBypassBound (n : Nat) | addressMode
  | firstOperand | secondOperand | base | scaledIndex | immediate | memoryImmediate
  | operationWidth | log2OperationSize | specialOperationsTrigger | nextInstructionAddress
  | haltStatus | interruptHandling
  | returnInstructionPointer | returnStackPointer | returnPrivilege
  | handlerInstructionPointer | handlerStackPointer
  | link | stackPointer | destination
deriving DecidableEq, Repr, Inhabited

/-- The registers the document names one by one (R32). -/
def RegName.documented : List RegName :=
  [.instructionPointer, .flags, .interruptVector, .interruptStack, .interruptMask, .interruptPending,
   .interruptCause, .interruptData, .privilege, .addressMode, .firstOperand, .secondOperand, .base,
   .scaledIndex, .immediate, .memoryImmediate, .operationWidth, .log2OperationSize,
   .specialOperationsTrigger, .nextInstructionAddress, .haltStatus, .interruptHandling,
   .returnInstructionPointer, .returnStackPointer, .returnPrivilege, .handlerInstructionPointer,
   .handlerStackPointer, .link, .stackPointer, .destination]

/-- The registers the document names as a group, with no count given (R32). -/
inductive RegGroup where
  | general | scratch | cacheBypassBound
deriving DecidableEq, Repr

/-- Every group of registers (R32). -/
def RegGroup.every : List RegGroup := [.general, .scratch, .cacheBypassBound]

/-- Whether a name belongs to a group. -/
def RegName.inGroup : RegName → RegGroup → Bool
  | .general _, .general | .scratch _, .scratch | .cacheBypassBound _, .cacheBypassBound => true
  | _, _ => false

/-- The binary ALU operations the document mentions by name (R91), and the ones it does not name. -/
inductive AluOp where
  | and | add | sub | subWithBorrow | reverseSub | reverseSubWithBorrow | shiftLeft | or
  | unnamed (n : Nat)
deriving DecidableEq, Repr, Inhabited

/-- The operations the document mentions by name (R91). -/
def AluOp.documented : List AluOp :=
  [.and, .add, .sub, .subWithBorrow, .reverseSub, .reverseSubWithBorrow, .shiftLeft, .or]

/-- Jump conditions: only `never` is named in the document (R93). -/
inductive CondName where
  | never
  | unnamed (n : Nat)
deriving DecidableEq, Repr, Inhabited

/-- The six size-override names (R92). -/
inductive SizeName where
  | half | word | double | quad | default | addressWidth
deriving DecidableEq, Repr, Inhabited

/-- The opcode classes the document says exist (R142 items 2 to 6). -/
inductive Mnemonic where
  | and | load | store | compare | test | moveZeroExtend | moveSignExtend | push | pop
  | sub | subWithBorrow | reverseSub | reverseSubWithBorrow
  | shiftLeftThenOr | loadEffectiveAddress | readControlRegister | writeControlRegister
deriving DecidableEq, Repr, Inhabited

/-- Every opcode class of R142. -/
def Mnemonic.every : List Mnemonic :=
  [.and, .load, .store, .compare, .test, .moveZeroExtend, .moveSignExtend, .push, .pop,
   .sub, .subWithBorrow, .reverseSub, .reverseSubWithBorrow,
   .shiftLeftThenOr, .loadEffectiveAddress, .readControlRegister, .writeControlRegister]

/-- The three booleans of an addressing-mode selector (R205). -/
structure ModeTerms where
  scaledIndex : Bool
  base : Bool
  displacement : Bool
deriving DecidableEq, Repr, Inhabited

/-! ### The configuration record -/

/-- `CFG` (R6). Functions over a finite range are vectors, name maps are association lists. -/
structure Cfg where
  /-- `CFG.reg_index`: register name to index (R33). The encoder never consults it. -/
  regIndex : List (RegName × Reg6)
  /-- `CFG.alu_code`: binary ALU operation to its code (R91). -/
  aluCode : List (AluOp × BitVec 4)
  /-- `CFG.cond_code`: jump condition to its code (R93). -/
  condCode : List (CondName × Cond4)
  /-- `CFG.size_code`: size override to its code (R92). -/
  sizeCode : List (SizeName × Size3)
  /-- `CFG.jreg_bits`: the register-offset field of `JR` for each offset register (R89). -/
  jregBits : Vector Word 64
  /-- `CFG.dt_init`: the descriptor table's contents (R142). -/
  dtInit : DescriptorTable
  /-- Which numeric opcode each named opcode class has: the model's own field, the witness of the
  constraints "there is a code with mnemonic …" of R142 (log entry 18). -/
  opcodeOf : List (Mnemonic × Fin 32)
  /-- `CFG.mode_bits`: addressing-mode selector to three booleans (R205). ASM never reads it. -/
  modeBits : Vector ModeTerms 8
  /-- `CFG.svc_slots`, `CFG.jc_slots`, `CFG.misc_slots`: the occupied slot numbers (R61). -/
  svcSlots : List (Fin 16)
  jcSlots : List (Fin 16)
  miscSlots : List (Fin 16)
  /-- `CFG.rev`, the control input `REV` (R27). -/
  rev : Rev
  /-- `CFG.build` as data (R200): the first row for a slot and a table answers; no row, no program. -/
  build : List BuilderEntry
  /-- The per-mode stride of the memory tables in words: 256 by R60 (kept a value, D10). -/
  modeStride : Nat
  /-- The per-opcode stride of the memory tables in words: 8 by R60 (kept a value, D10). -/
  opcodeStride : Nat
deriving DecidableEq, Repr

/-- The bits a `JR` word gives to `CFG.jreg_bits`: bit 31 and bits 20:2 (R89). -/
def jregMask : Word := 0x801FFFFC#32

/-- The bits of a word that `jregMask` selects. -/
def jregPart (w : Word) : Word := w &&& jregMask

/-- R33: every register the document names has an index, every group has a register, and some register,
the one the source uses as the NOP's condition-test register, has index 0 (R33 (c) does not say which).
Two names may share an index. The encoder never consults the map. -/
def Cfg.registersOk (c : Cfg) : Bool :=
  decide (c.regIndex.map (·.1)).Nodup &&
  RegName.documented.all (fun r => (c.regIndex.lookup r).isSome) &&
  RegGroup.every.all (fun g => c.regIndex.any fun r => r.1.inGroup g) &&
  c.regIndex.any (fun r => r.2 == 0#6)

/-- R91-R93: every ALU operation the document names has a code, and no two share one; `never` is 0, and
two conditions may share a code; `size_code` is injective on the six names. DESIGN CHOICE (log entry 29):
R6 asks `alu_code` to be injective on canonical names and no file says which names are canonical; here every
name is, the unnamed ones too. Unsafe for claims about ALU names alone: no step reads the map. -/
def Cfg.codesOk (c : Cfg) : Bool :=
  decide (c.aluCode.map (·.1)).Nodup && decide (c.aluCode.map (·.2)).Nodup &&
  AluOp.documented.all (fun o => (c.aluCode.lookup o).isSome) &&
  decide (c.condCode.map (·.1)).Nodup && c.condCode.lookup .never == some 0#4 &&
  decide (c.sizeCode.map (·.1)).Nodup && decide (c.sizeCode.map (·.2)).Nodup &&
  c.sizeCode.length == 6

/-- R6: the maps from names to numbers. -/
def Cfg.namesOk (c : Cfg) : Bool := c.registersOk && c.codesOk

/-- R89 (a) and (b): no bit outside the mask, and no value twice. -/
def Cfg.jregOk (c : Cfg) : Bool :=
  c.jregBits.toList.all (fun w => jregPart w == w) && decide c.jregBits.toList.Nodup

/-- The descriptor of a named opcode class, if the class has a code that is assigned. -/
def Cfg.descriptorOf (c : Cfg) (m : Mnemonic) : Option Descriptor :=
  (c.opcodeOf.lookup m).bind fun k => c.dtInit[k]

/-- `p` holds of the descriptor of the opcode class `m`, which exists. -/
def Cfg.describes (c : Cfg) (m : Mnemonic) (p : Descriptor → Bool) : Bool :=
  match c.descriptorOf m with
  | some d => p d
  | none => false

/-- R140 and the constraints of R142: a descriptor stands at its own code; more than one code is
unassigned; AND, the moves, compare, test, load and store have the stated properties; every named
class has a descriptor. -/
def Cfg.dtOk (c : Cfg) : Bool :=
  (List.finRange 32).all (fun k => match c.dtInit[k] with
    | some d => d.code == k
    | none => true) &&
  decide (2 ≤ (c.dtInit.toList.filter (·.isNone)).length) &&
  c.describes .and (fun d =>
    d.alu == (c.aluCode.lookup .and).map AluKind.bin && d.alu.isSome && d.uf && d.st) &&
  c.describes .moveZeroExtend (fun d => !d.uf && d.st && !d.sx) &&
  c.describes .moveSignExtend (fun d => !d.uf && d.st && d.sx) &&
  c.describes .compare (fun d => !d.st && d.uf) &&
  c.describes .test (fun d => !d.st && d.uf) &&
  c.describes .load (fun d => d.alu == some .load) &&
  c.describes .store (fun d => d.alu == some .store) &&
  Mnemonic.every.all (fun m => (c.descriptorOf m).isSome)

/-- R61 (sizes 8, 12 and 11) and R205 (a bijection from 0..7 to the triples). -/
def Cfg.slotsOk (c : Cfg) : Bool :=
  decide c.svcSlots.Nodup && c.svcSlots.length == 8 &&
  decide c.jcSlots.Nodup && c.jcSlots.length == 12 &&
  decide c.miscSlots.Nodup && c.miscSlots.length == 11 &&
  decide c.modeBits.toList.Nodup

/-- R60: the strides of the memory tables. -/
def Cfg.stridesOk (c : Cfg) : Bool :=
  c.modeStride == 256 && c.opcodeStride == 8

/-- R228: the slots whose builders may read the revision. -/
def SlotId.mayReadRev : SlotId → Bool
  | .crr | .crw | .jc _ => true
  | _ => false

/-- R228: every other builder answers the same under both revisions. -/
def Cfg.buildOk (c : Cfg) : Bool :=
  c.build.all fun e => match e.answer with
    | .anyRev _ => true
    | .perRev n w => e.slot.mayReadRev || n == w

/-- R61: whether a slot number is occupied. The slots of the other regions all are. -/
def Cfg.occupied (c : Cfg) : SlotId → Bool
  | .svc k => decide (k ∈ c.svcSlots)
  | .jc k => decide (k ∈ c.jcSlots)
  | .misc k => decide (k ∈ c.miscSlots)
  | _ => true

/-- The empty result under either revision (R204). -/
def BuilderAnswer.isNone : BuilderAnswer → Bool
  | .anyRev r => r.isNone
  | .perRev n w => n.isNone && w.isNone

/-- R61: for a slot number outside its set the builder function returns no program. -/
def Cfg.unoccupiedOk (c : Cfg) : Bool :=
  c.build.all fun e => c.occupied e.slot || e.answer.isNone

/-- A configuration of this hardware (R6: one that breaks a constraint is not a configuration of it). -/
def Cfg.wf (c : Cfg) : Bool :=
  c.namesOk && c.jregOk && c.dtOk && c.slotsOk && c.stridesOk && c.buildOk &&
    c.unoccupiedOk

/-- A configuration that meets the constraints of R6, made from the numbers of `CFG_ref` (D32) and
completed arbitrarily. It shows that the constraints can be met and serves the tests; no operation
and no statement of the model rests on its numbers. -/
def Cfg.sample : Cfg where
  regIndex :=
    [(.general 0, 0), (.firstOperand, 1), (.secondOperand, 2), (.destination, 1), (.base, 10),
     (.scaledIndex, 11), (.immediate, 12), (.memoryImmediate, 13), (.operationWidth, 14),
     (.log2OperationSize, 15), (.specialOperationsTrigger, 16), (.nextInstructionAddress, 17),
     (.haltStatus, 18), (.interruptHandling, 19), (.scratch 0, 20), (.scratch 1, 21),
     (.stackPointer, 30), (.link, 31), (.instructionPointer, 33), (.flags, 34), (.addressMode, 40),
     (.interruptVector, 41), (.interruptStack, 42), (.interruptMask, 43), (.interruptPending, 44),
     (.interruptCause, 45), (.interruptData, 46), (.privilege, 47), (.cacheBypassBound 0, 48),
     (.cacheBypassBound 1, 49), (.returnInstructionPointer, 50), (.returnStackPointer, 51),
     (.returnPrivilege, 52), (.handlerInstructionPointer, 53), (.handlerStackPointer, 54)]
  aluCode :=
    [(.add, 0), (.sub, 1), (.reverseSub, 2), (.subWithBorrow, 3), (.or, 4), (.unnamed 5, 5), (.and, 6),
     (.reverseSubWithBorrow, 7), (.shiftLeft, 8)]
  condCode := [(.never, 0), (.unnamed 15, 15)]
  sizeCode :=
    [(.half, 0), (.word, 1), (.double, 2), (.quad, 3), (.default, 4), (.addressWidth, 5)]
  jregBits := Vector.ofFn fun o => BitVec.ofNat 32 (8 * o.val + 4)
  dtInit := #v[
    none, none, none, some ⟨3, none, true, false, false⟩, none, none,
    some ⟨6, some (.bin 6), true, false, true⟩, some ⟨7, none, true, false, false⟩,
    some ⟨8, none, false, false, true⟩, some ⟨9, none, false, true, true⟩,
    some ⟨10, some .load, false, false, true⟩, some ⟨11, some .store, false, false, false⟩,
    some ⟨12, none, false, false, true⟩, some ⟨13, none, false, false, false⟩,
    some ⟨14, none, false, false, true⟩, some ⟨15, none, false, false, false⟩,
    some ⟨16, none, false, false, true⟩, some ⟨17, none, true, false, true⟩,
    some ⟨18, none, true, false, true⟩, some ⟨19, none, true, false, true⟩,
    some ⟨20, none, true, false, true⟩, some ⟨21, none, false, false, true⟩,
    none, none, none, none, none, none, none, none, none, none]
  opcodeOf :=
    [(.and, 6), (.load, 10), (.store, 11), (.compare, 3), (.test, 7), (.moveZeroExtend, 8),
     (.moveSignExtend, 9), (.push, 13), (.pop, 12), (.sub, 17), (.subWithBorrow, 18),
     (.reverseSub, 19), (.reverseSubWithBorrow, 20), (.shiftLeftThenOr, 21),
     (.loadEffectiveAddress, 16), (.readControlRegister, 14), (.writeControlRegister, 15)]
  modeBits := #v[
    ⟨false, false, false⟩, ⟨false, false, true⟩, ⟨false, true, false⟩, ⟨false, true, true⟩,
    ⟨true, false, false⟩, ⟨true, false, true⟩, ⟨true, true, false⟩, ⟨true, true, true⟩]
  svcSlots := [0, 1, 2, 3, 4, 5, 6, 7]
  jcSlots := [0, 1, 2, 3, 4, 5, 6, 7, 8, 9, 10, 11]
  miscSlots := [0, 1, 2, 3, 4, 5, 6, 7, 8, 9, 10]
  rev := .narrow
  build := []
  modeStride := 256
  opcodeStride := 8

theorem Cfg.sample_wf : Cfg.sample.wf = true := by decide

/-- A configuration with the proof that it is one of this hardware. -/
structure HardwareCfg where
  cfg : Cfg := Cfg.sample
  wf : cfg.wf = true := by exact Cfg.sample_wf
deriving Inhabited

/-! ### Free values -/

/-- The configuration the host has fixed before the block is reset (R6, R283): any configuration of
this hardware, the builder's answers among it. FREE VALUE (log entry 2). -/
opaque Config.host : HardwareCfg

/-- `ABORT_REC` when no abort has written it (R24, R26, U10). FREE VALUE (log entry 8). -/
opaque Config.freeAbortRec : Nat → AbortRec

/-- `ABORT_REC.slot` where the raise leaves it unspecified (R255). FREE VALUE (log entry 8). -/
opaque Config.freeSlot : Nat → SlotId

/-- `ABORT_REC.op_index` where the cause does not set it (R255, U10). FREE VALUE (log entry 8). -/
opaque Config.freeOpIndex : Nat → Nat

/-- Which unwritten word FINISH reports when several are unwritten (R171). FREE VALUE (log entry 9). -/
opaque Config.freeChoice : Nat → Nat

/-- The offset register the hardware's real layout gives to the `jreg` bits of a tag-11 word that no
`JI` word has (R89, N5). FREE VALUE, read only by `decodeTableWord` (log entry 12). -/
opaque Config.tableOreg : Word → Reg6

end Sys2Proof
end

