-- ==== Sys2Proof/Machine/Operands.lean ====
section
/-! DEFINITION. Operand forms: the range test and the two's-complement patterns of the immediates
(`spec/00_scope.md` R8), the ALU-kind codes (`spec/30_encoding.md` R91), and bytes of a word
(`spec/20_memory.md` R52). -/

namespace Sys2Proof

/-- `fits_N(v)`: `-2^(N-1) <= v <= 2^(N-1) - 1` (R8). -/
def fits (n : Nat) (v : Int) : Bool :=
  decide (-(2 ^ (n - 1)) ≤ v ∧ v ≤ 2 ^ (n - 1) - 1)

/-- `tc_N(v) = v mod 2^N`, the N-bit two's-complement pattern (R8, R120). -/
def tc (n : Nat) (v : Int) : BitVec n := BitVec.ofInt n v

/-- `sext_N(u)` (R8). -/
def sext {n : Nat} (u : BitVec n) : Int := u.toInt

/-- `zext_N(u)` (R8). -/
def zext {n : Nat} (u : BitVec n) : Nat := u.toNat

/-- The 5-bit code of an ALU kind: `k`, 30 or 31 (R36, R91). -/
def AluKind.code : AluKind → BitVec 5
  | .bin k => 0#1 ++ k
  | .load => 30#5
  | .store => 31#5

/-- The ALU kind of a code; codes 16..29 have no meaning (R91, R96). -/
def kindOfCode (c : BitVec 5) : Option AluKind :=
  if c.toNat < 16 then some (.bin (c.extractLsb' 0 4))
  else if c = 30#5 then some .load
  else if c = 31#5 then some .store
  else none

/-- A boolean field as one bit, 1 for true (R94). -/
def flagBit (b : Bool) : BitVec 1 := BitVec.ofBool b

/-- `bits[hi:lo]` as `width` bits from `lo` up (R7). -/
def field (lo width : Nat) (w : Word) : BitVec width := w.extractLsb' lo width

/-- Byte `i` of a stored word: `w[8i+7 : 8i]` (R52, little-endian). -/
def wordByte (w : Word) (i : Nat) : Byte := w.extractLsb' (8 * i) 8

/-- The four bytes of a word in the image, lowest address first (R52). -/
def wordBytes (w : Word) : List Byte :=
  [wordByte w 0, wordByte w 1, wordByte w 2, wordByte w 3]

/-- The little-endian unsigned integer of a byte list (R54). -/
def littleEndian : List Byte → Nat
  | [] => 0
  | b :: bs => b.toNat + 256 * littleEndian bs

/-- The word of four bytes, lowest address first (R52). -/
def wordOfBytes (b0 b1 b2 b3 : Byte) : Word := b3 ++ b2 ++ b1 ++ b0

end Sys2Proof
end

