-- ==== Sys2Proof/WellFormed.lean ====
section
/-! DEFINITION. A micro-op is well formed when its immediate fits its field: the one check that the
field types do not make (`spec/40_microop_encoder.md` R117, R118). -/

namespace Sys2Proof

/-- The micro-ops unit ENC encodes; the others are rejected with `EncodingRange` (R118). -/
def Instr.wf : Instr → Bool
  | .alur _ _ _ _ _ _ _ _ => true
  | .alui _ _ imm _ _ _ _ _ => fits 7 imm
  | .ldc _ imm => fits 24 imm
  | .ji _ _ off => fits 14 off
  | .jr _ _ _ => true
  | .nop => true

/-- A micro-program all of whose micro-ops are well formed. -/
def programWf (p : List Instr) : Bool := p.all Instr.wf

end Sys2Proof
end

