-- ==== Sys2Proof/Decode.lean ====
section
/-! DEFINITION. Unit ENC word by word (`spec/30_encoding.md`, `spec/40_microop_encoder.md` R110 to
R116), and the decode functions that R100 allows for tests. The block itself decodes nothing (R12). The
decoders stand first, the encoder after them. -/

namespace Sys2Proof

/-- Why a decoder rejects bits. -/
inductive DecodeRefusal where
  /-- fewer than four bytes (R80: every micro-op is one 32-bit word) -/
  | truncated
  /-- the tag is not the one of the variant asked for (R80) -/
  | otherTag
  /-- a tag-00 word with bit 31 set (R96) -/
  | bit31
  /-- an ALU word with kind 16..29 (R96) -/
  | reservedKind
  /-- a `JI` word with a bit of 14:9 set (R96) -/
  | bits14to9
  /-- bits that the register-offset layout gives to no offset register (R89) -/
  | noOffsetRegister
  /-- not the word `0x00000003` (R97) -/
  | notNop
deriving DecidableEq, Repr

/-- The five word variants and the constant (R36, R116). -/
inductive Variant where
  | alur | alui | ldc | ji | jr | nop
deriving DecidableEq, Repr

/-- The variant of a micro-op. -/
def Instr.variant : Instr → Variant
  | .alur _ _ _ _ _ _ _ _ => .alur
  | .alui _ _ _ _ _ _ _ _ => .alui
  | .ldc _ _ => .ldc
  | .ji _ _ _ => .ji
  | .jr _ _ _ => .jr
  | .nop => .nop

/-- The tag, bits 1:0 (R80). -/
def tagOf (w : Word) : BitVec 2 := field 0 2 w

/-- The tag of each variant (R80). -/
def Variant.tag : Variant → BitVec 2
  | .alur => 0b00#2
  | .alui => 0b01#2
  | .ldc => 0b10#2
  | .ji => 0b11#2
  | .jr => 0b11#2
  | .nop => 0b11#2

/-- The canonical no-operation (R97, R116). -/
def nopWord : Word := 0x00000003#32

/-! ### Decoding, for tests (R100) -/

/-- `imm7(w) = sext_7(w[31] ++ w[20:15])` (R86, R100). -/
def imm7 (w : Word) : Int := sext (field 31 1 w ++ field 15 6 w : BitVec 7)

/-- `imm24(w) = sext_24(w[31:15] ++ w[8:2])` (R87, R100). -/
def imm24 (w : Word) : Int := sext (field 15 17 w ++ field 2 7 w : BitVec 24)

/-- `off14(w) = sext_14(w[31] ++ w[20:15] ++ w[8:2])` (R88, R100). -/
def off14 (w : Word) : Int := sext (field 31 1 w ++ field 15 6 w ++ field 2 7 w : BitVec 14)

/-- A one-bit field, 1 is true (R94). -/
def flagAt (i : Nat) (w : Word) : Bool := w.getLsbD i

/-- Format `ALUR` (R81). -/
def decodeAlur (w : Word) : Except DecodeRefusal Instr :=
  if tagOf w ≠ 0b00#2 then .error .otherTag
  else if flagAt 31 w then .error .bit31
  else match kindOfCode (field 4 5 w) with
    | none => .error .reservedKind
    | some kind =>
      .ok (.alur kind (field 21 6 w) (field 15 6 w) (field 9 6 w)
        (flagAt 3 w) (flagAt 2 w) (flagAt 30 w) (field 27 3 w))

/-- Format `ALUI` (R82). -/
def decodeAlui (w : Word) : Except DecodeRefusal Instr :=
  if tagOf w ≠ 0b01#2 then .error .otherTag
  else match kindOfCode (field 4 5 w) with
    | none => .error .reservedKind
    | some kind =>
      .ok (.alui kind (field 21 6 w) (imm7 w) (field 9 6 w)
        (flagAt 3 w) (flagAt 2 w) (flagAt 30 w) (field 27 3 w))

/-- Format `LDC` (R83). -/
def decodeLdc (w : Word) : Except DecodeRefusal Instr :=
  if tagOf w ≠ 0b10#2 then .error .otherTag
  else .ok (.ldc (field 9 6 w) (imm24 w))

/-- Format `JI` (R84). -/
def decodeJi (w : Word) : Except DecodeRefusal Instr :=
  if tagOf w ≠ 0b11#2 then .error .otherTag
  else if field 9 6 w ≠ 0#6 then .error .bits14to9
  else .ok (.ji (field 21 6 w) (field 27 4 w) (off14 w))

/-- Format `JR` (R85). `oregOf` is the inverse of the register-offset layout: the offset register of
given `jreg` bits, if they are in the layout (R89). -/
def decodeJr (oregOf : Word → Option Reg6) (w : Word) : Except DecodeRefusal Instr :=
  if tagOf w ≠ 0b11#2 then .error .otherTag
  else match oregOf (jregPart w) with
    | none => .error .noOffsetRegister
    | some oreg => .ok (.jr (field 21 6 w) (field 27 4 w) oreg)

/-- The word `NOP` (R97). -/
def decodeNop (w : Word) : Except DecodeRefusal Instr :=
  if w = nopWord then .ok .nop else .error .notNop

/-- Decoding by a decoder that is TOLD the variant, as the encoder is (R95). -/
def decodeAs (oregOf : Word → Option Reg6) : Variant → Word → Except DecodeRefusal Instr
  | .alur => decodeAlur
  | .alui => decodeAlui
  | .ldc => decodeLdc
  | .ji => decodeJi
  | .jr => decodeJr oregOf
  | .nop => decodeNop

/-- Which variant a decoder takes a bare word for (R95's map, the most specific row first). DESIGN
CHOICE (log entry 11): in tag 11, `NOP`, then `JI` where bits 14:9 are 0, then `JR`. The source names no
bit that tells `JI` from `JR` (R89, C7). Unsafe: a `JR` word may be read as a `JI` word. -/
def variantOf (w : Word) : Variant :=
  if tagOf w = 0b00#2 then .alur
  else if tagOf w = 0b01#2 then .alui
  else if tagOf w = 0b10#2 then .ldc
  else if w = nopWord then .nop
  else if field 9 6 w = 0#6 then .ji
  else .jr

/-- Decoding of a bare word, total, rejecting by name. -/
def decodeWord (oregOf : Word → Option Reg6) (w : Word) : Except DecodeRefusal Instr :=
  decodeAs oregOf (variantOf w) w

/-- Decoding of any bytes: one little-endian word (R52, R80) and the bytes after it. -/
def decodeBytes (oregOf : Word → Option Reg6) :
    List Byte → Except DecodeRefusal (Instr × List Byte)
  | b0 :: b1 :: b2 :: b3 :: rest =>
    match decodeWord oregOf (wordOfBytes b0 b1 b2 b3) with
    | .ok i => .ok (i, rest)
    | .error e => .error e
  | _ => .error .truncated

/-- The inverse of a register-offset layout: the offset register with these bits (R89). -/
def oregIn (layout : Vector Word 64) (bits : Word) : Option Reg6 :=
  ((List.finRange 64).find? fun o => layout[o] == bits).map fun o => BitVec.ofFin o

/-- The instruction the decoder reads from a table word of `nbits` bits (bits above `nbits` are 0). The
opcode table knows no configuration, so the offset register of a `JR` word is the free value
`Config.tableOreg` (log entry 12). -/
def decodeTableWord (nbits w : Nat) : Option Instr :=
  match decodeBytes (fun bits => some (Config.tableOreg bits))
      (wordBytes (BitVec.ofNat 32 (w % 2 ^ nbits))) with
  | .ok (i, _) => some i
  | .error _ => none

/-! ### Unit ENC: the encoder -/

/-- `ENC.ALUR` (R111, format R81): total. -/
def encAlur (kind : AluKind) (srcA srcB dest : Reg6) (uf eoi adv : Bool) (size : Size3) : Word :=
  0#1 ++ flagBit adv ++ size ++ srcA ++ srcB ++ dest ++ kind.code ++ flagBit uf ++ flagBit eoi ++
    0b00#2

/-- `ENC.ALUI` (R112, format R82): rejects an immediate outside [-64, 63] (R118). -/
def encAlui (kind : AluKind) (srcA : Reg6) (imm : Int) (dest : Reg6) (uf eoi adv : Bool)
    (size : Size3) : Except RangeFailure Word :=
  if fits 7 imm then
    let u := tc 7 imm
    .ok (u.extractLsb' 6 1 ++ flagBit adv ++ size ++ srcA ++ u.extractLsb' 0 6 ++ dest ++
      kind.code ++ flagBit uf ++ flagBit eoi ++ 0b01#2)
  else .error ⟨.imm7, imm⟩

/-- `ENC.LDC` (R113, format R83): rejects an immediate outside [-8388608, 8388607] (R118). -/
def encLdc (dest : Reg6) (imm : Int) : Except RangeFailure Word :=
  if fits 24 imm then
    let u := tc 24 imm
    .ok (u.extractLsb' 7 17 ++ dest ++ u.extractLsb' 0 7 ++ 0b10#2)
  else .error ⟨.imm24, imm⟩

/-- `ENC.JI` (R114, format R84): rejects an offset outside [-8192, 8191] (R118). -/
def encJi (creg : Reg6) (cond : Cond4) (off : Int) : Except RangeFailure Word :=
  if fits 14 off then
    let u := tc 14 off
    .ok (u.extractLsb' 13 1 ++ cond ++ creg ++ u.extractLsb' 7 6 ++ 0#6 ++ u.extractLsb' 0 7 ++
      0b11#2)
  else .error ⟨.imm14, off⟩

/-- `ENC.JR` (R115, format R85): the layout's bits at 31 and 20:2, the other fields written over it;
total. -/
def encJr (layout : Vector Word 64) (creg : Reg6) (cond : Cond4) (oreg : Reg6) : Word :=
  let w := layout[oreg.toFin]
  w.extractLsb' 31 1 ++ cond ++ creg ++ w.extractLsb' 2 19 ++ 0b11#2

/-- `ENC.<variant of i>(fields of i)` (R110, R121). -/
def encode (layout : Vector Word 64) : Instr → Except RangeFailure Word
  | .alur kind srcA srcB dest uf eoi adv size => .ok (encAlur kind srcA srcB dest uf eoi adv size)
  | .alui kind srcA imm dest uf eoi adv size => encAlui kind srcA imm dest uf eoi adv size
  | .ldc dest imm => encLdc dest imm
  | .ji creg cond off => encJi creg cond off
  | .jr creg cond oreg => .ok (encJr layout creg cond oreg)
  | .nop => .ok nopWord

/-- `ENC.PROG` (R121) as a function: the words of a program, or the first failure and its position. -/
def encodeProgram (layout : Vector Word 64) (p : List Instr) :
    Except (RangeFailure × Nat) (List Word) :=
  go 0 p
where
  /-- The loop over `p[i], p[i+1], …`. -/
  go (i : Nat) : List Instr → Except (RangeFailure × Nat) (List Word)
    | [] => .ok []
    | op :: ops =>
      match encode layout op with
      | .error e => .error (e, i)
      | .ok w =>
        match go (i + 1) ops with
        | .error e => .error e
        | .ok ws => .ok (w :: ws)

end Sys2Proof
end

