-- ==== Sys2Proof/Machine/State.lean ====
section
/-! DEFINITION. The storage of the block (`spec/10_state.md` R20 to R26), the configuration it is given
(R6), the reasons a step can stop, and the state after reset (R26). -/

namespace Sys2Proof.Machine

/-- The image buffer `IMG` as bytes (R20, R50): the bytes that have a value, by byte offset, offsets
strictly rising. An offset that is not listed has NO VALUE (R20, R26; log entry 7). -/
abbrev Memory := List Host.Cell

/-- Canonical form: strictly rising offsets. An unlisted byte reads as no value, so no entry can equal
what an unlisted offset reads as. -/
def Memory.wf (m : Memory) : Bool := decide (m.Pairwise fun x y => x.1 < y.1)

/-- The state of the block. -/
structure State where
  /-- `IMG`, the image buffer (R20). -/
  img : Memory
  /-- `WR`, one written flag per image word (R21). -/
  wr : BitVec 8192
  /-- `DONE` (R22). -/
  done : Bool
  /-- `ABORT` (R22). -/
  abort : Bool
  /-- `SEQ`, the slot sequence pointer, 0..882: the program counter (R23). -/
  seq : Nat
  /-- `ABORT_REC`, valid only when `abort` (R24). -/
  abortRec : AbortRec
  /-- `DT`, the descriptor ROM (R25, R140). -/
  rom : DescriptorTable
  /-- The value of `REV` sampled at the first step of the pass (R172, R26). -/
  revSample : Rev
  /-- The word list `ws` that ENC.PROG is building (R121); empty between steps (R35). -/
  ws : List Word
  /-- `CFG`, the host's configuration with the control input `REV` in it (R6, R27). No step writes it. -/
  cfg : Cfg
  /-- The MODEL's own counter: the index of the next free value (log entry 8). -/
  free : Nat
deriving DecidableEq, Repr

/-- Why a step, or a host operation, stops the machine. -/
inductive Fault where
  /-- `step` with `DONE = 1`: no step is enabled (R164). Raised by `asmStep`. Safe. -/
  | passDone
  /-- `step` with `ABORT = 1`: no step is enabled (R164, R257). Raised by `asmStep`. Safe. -/
  | passAborted
  /-- `step` with `SEQ >= 882` and neither flag set: no step is enabled (R164, R23). No run from reset
  reaches it. Raised by `asmStep`. Safe. -/
  | seqBeyondPlan
  /-- A word or byte outside the image (R50, R53). With the strides of R60 no write raises it. Raised by
  `completeSlot` and `memRead`. Safe. -/
  | imageRange
deriving DecidableEq, Repr

/-- What the model gives no meaning. -/
inductive Refusal where
  /-- An instruction with no meaning yet. Raised by an arm of `exec` only. Safe. -/
  | notModelled (mnemonic : String)
  /-- `MemRead` or `EMIT` before DONE or after ABORT (R54, R290): the image has no readable value.
  Raised by `memRead`, `emit`. Safe. -/
  | imageNotReadable
  /-- `MemRead` of a byte that nothing has written (R20). Raised by `memRead`. Safe. -/
  | unwrittenByte
  /-- A new `CFG` in the middle of a pass (R283). Raised by `configure`. Safe. -/
  | configurationInPass
deriving DecidableEq, Repr

/-- The block right after reset under a configuration (R26, R142): the image without value, every
written flag 0, `SEQ = DONE = ABORT = 0`; the ROM holds `CFG.dt_init`. `ABORT_REC` is unspecified, so
it is a free value; `REV` has not been sampled, and the sample holds the host's value (log entries 8
and 16). -/
def State.resetWith (c : Cfg) : State where
  img := []
  wr := 0#8192
  done := false
  abort := false
  seq := 0
  abortRec := Config.freeAbortRec 0
  rom := c.dtInit
  revSample := c.rev
  ws := []
  cfg := c
  free := 1

/-- The block right after reset (R26, R280). The configuration is the one the host has fixed before
(R283): the free value `Config.host` (log entry 2). -/
def State.reset : State := State.resetWith Config.host.cfg

end Sys2Proof.Machine
end

