-- ==== Sys2Proof/Machine/Flags.lean ====
section
/-! DEFINITION. The flags of the block. It has no condition codes (`spec/10_state.md` R29): the `uf` bit
of a micro-op and of a descriptor is data. Its flag-like state is DONE and ABORT (R22) and the written
flags WR (R21). -/

namespace Sys2Proof.Machine

/-- `IMAGE_WORDS` (R5). -/
abbrev imageWords : Nat := 8192

/-- `IMAGE_BYTES` (R5). -/
abbrev imageBytes : Nat := 32768

/-- `WR[a]` (R21). -/
def State.written (s : State) (a : Nat) : Bool := s.wr.getLsbD a

/-- `WR` with `WR[a] <- 1` (R53). -/
def setWritten (wr : BitVec 8192) (a : Nat) : BitVec 8192 := wr ||| BitVec.twoPow 8192 a

/-- Every written flag is 1 (R171). -/
def allWritten (wr : BitVec 8192) : Bool := wr == BitVec.allOnes 8192

/-- The word addresses whose written flag is 0, ascending (R171). -/
def unwritten (wr : BitVec 8192) : List Nat :=
  (List.range imageWords).filter fun a => !wr.getLsbD a

/-- `DONE <- 1` (R171). -/
def State.setDone (s : State) : State := { s with done := true }

/-- Whether a step is enabled (R164). -/
def State.enabled (s : State) : Bool := !s.abort && !s.done && decide (s.seq < 882)

end Sys2Proof.Machine
end

