-- ==== Sys2Proof/Machine/Plan.lean ====
section
/-! DEFINITION. The static plan `ASM.PLAN`: the address map (`spec/20_memory.md` R58 to R62) and the
functions `order`, `base` and `window` (`spec/42_image_assembler.md` R160 to R163). -/

namespace Sys2Proof.Machine

/-- The number of slots (R23, R161). -/
abbrev slotCount : Nat := 882

/-- `order(n)`, the fixed sequence of the 882 slots (R161). -/
def order (n : Nat) : Option SlotId :=
  if n < 32 then some (.rr (Fin.ofNat 32 n))
  else if n < 64 then some (.ri (Fin.ofNat 32 (n - 32)))
  else if n = 64 then some .crr
  else if n = 65 then some .crw
  else if n < 82 then some (.svc (Fin.ofNat 16 (n - 66)))
  else if n < 338 then some (.mi (Fin.ofNat 8 ((n - 82) / 32)) (Fin.ofNat 32 ((n - 82) % 32)))
  else if n < 594 then some (.rm (Fin.ofNat 8 ((n - 338) / 32)) (Fin.ofNat 32 ((n - 338) % 32)))
  else if n < 850 then some (.mr (Fin.ofNat 8 ((n - 594) / 32)) (Fin.ofNat 32 ((n - 594) % 32)))
  else if n < 866 then some (.jc (Fin.ofNat 16 (n - 850)))
  else if n < 882 then some (.misc (Fin.ofNat 16 (n - 866)))
  else none

/-- `base`, the base word address of a slot (R162). The strides of the memory tables are those of the
configuration, 256 and 8 by R60. -/
def base (c : Cfg) : SlotId → Nat
  | .rr k => 4 * k.val
  | .ri k => 128 + 4 * k.val
  | .crr => 256
  | .crw => 384
  | .svc k => 512 + 32 * k.val
  | .mi m k => 1024 + c.modeStride * m.val + c.opcodeStride * k.val
  | .rm m k => 3072 + c.modeStride * m.val + c.opcodeStride * k.val
  | .mr m k => 5120 + c.modeStride * m.val + c.opcodeStride * k.val
  | .jc k => 7168 + 32 * k.val
  | .misc k => 7680 + 32 * k.val

/-- `window`, the size of a slot in words (R163). -/
def window : SlotId → Nat
  | .rr _ | .ri _ => 4
  | .crr | .crw => 128
  | .svc _ | .jc _ | .misc _ => 32
  | .mi _ _ | .rm _ _ | .mr _ _ => 8

/-- The byte offset of a word address (R51). -/
def byteOffset (a : Nat) : Nat := 4 * a

/-- The ten regions (R58). -/
inductive RegionName where
  | registerRegister | registerImmediate | controlRead | controlWrite | services
  | memoryImmediate | registerMemory | memoryRegister | jumpCall | miscellaneous
deriving DecidableEq, Repr

/-- One row of the address map (R58): the inclusive byte range. -/
structure Region where
  name : RegionName
  firstByte : Nat
  lastByte : Nat
deriving DecidableEq, Repr

/-- The address map, ascending (R58). -/
def regions : List Region :=
  [⟨.registerRegister, 0, 511⟩, ⟨.registerImmediate, 512, 1023⟩, ⟨.controlRead, 1024, 1535⟩,
   ⟨.controlWrite, 1536, 2047⟩, ⟨.services, 2048, 4095⟩, ⟨.memoryImmediate, 4096, 12287⟩,
   ⟨.registerMemory, 12288, 20479⟩, ⟨.memoryRegister, 20480, 28671⟩, ⟨.jumpCall, 28672, 30719⟩,
   ⟨.miscellaneous, 30720, 32767⟩]

/-- The region of a slot (R39, R58). -/
def regionOf : SlotId → RegionName
  | .rr _ => .registerRegister
  | .ri _ => .registerImmediate
  | .crr => .controlRead
  | .crw => .controlWrite
  | .svc _ => .services
  | .mi _ _ => .memoryImmediate
  | .rm _ _ => .registerMemory
  | .mr _ _ => .memoryRegister
  | .jc _ => .jumpCall
  | .misc _ => .miscellaneous

/-- The numeric opcode in a slot identifier of the five table regions (R39, R256). -/
def opcodeOfSlot : SlotId → Option (Fin 32)
  | .rr k | .ri k | .mi _ k | .rm _ k | .mr _ k => some k
  | .crr | .crw | .svc _ | .jc _ | .misc _ => none

end Sys2Proof.Machine
end

