-- ==== Sys2Proof/Machine/Ops.lean ====
section
/-! DEFINITION. The named operations over the image and the status: `WordWrite` and `MemRead`
(`spec/20_memory.md` R53, R54), the abort entry (`spec/60_exceptions.md` R255) and the block's reset
(`spec/70_reset_and_hazards.md` R280), which is the only way out of an abort (R257). -/

namespace Sys2Proof.Machine

/-! ### Bytes of the image -/

/-- The value of the byte at offset `b`, if it has one. -/
def Memory.get : Memory → Nat → Option Byte
  | [], _ => none
  | c :: m, b => if c.1 = b then some c.2 else Memory.get m b

/-- Store a byte, keeping the canonical form. -/
def Memory.set : Memory → Nat → Byte → Memory
  | [], b, v => [(b, v)]
  | c :: m, b, v =>
    if b < c.1 then (b, v) :: c :: m
    else if c.1 = b then (b, v) :: m
    else c :: Memory.set m b v

/-- `IMG[a] <- w`: bytes `4a .. 4a+3`, little-endian (R52, R53). -/
def Memory.setWord (m : Memory) (a : Nat) (w : Word) : Memory :=
  (((m.set (4 * a) (wordByte w 0)).set (4 * a + 1) (wordByte w 1)).set
    (4 * a + 2) (wordByte w 2)).set (4 * a + 3) (wordByte w 3)

/-- `IMG[a]`, if its four bytes have values (R9, R51). -/
def Memory.getWord (m : Memory) (a : Nat) : Option Word :=
  match m.get (4 * a), m.get (4 * a + 1), m.get (4 * a + 2), m.get (4 * a + 3) with
  | some b0, some b1, some b2, some b3 => some (wordOfBytes b0 b1 b2 b3)
  | _, _, _, _ => none

/-! ### The write primitive -/

/-- What stops a `WordWrite`. -/
inductive WriteError where
  /-- `LayoutMismatch({field: overlap, value: a})` (R53) -/
  | overlap (a : Nat)
  /-- not a word address of the image (R50) -/
  | outside (a : Nat)
deriving DecidableEq, Repr

/-- The state with word `a` stored and marked written. -/
def State.putWord (a : Nat) (w : Word) (s : State) : State :=
  { s with img := s.img.setWord a w, wr := setWritten s.wr a }

/-- `WordWrite(a, w)`, the block's only write (R53). -/
def wordWrite (a : Nat) (w : Word) (s : State) : Except WriteError State :=
  if imageWords ≤ a then .error (.outside a)
  else if s.written a then .error (.overlap a)
  else .ok (s.putWord a w)

/-- `WordWrite` of consecutive words from `a` up (R165). -/
def writeWords : Nat → List Word → State → Except WriteError State
  | _, [], s => .ok s
  | a, w :: ws, s =>
    match wordWrite a w s with
    | .error e => .error e
    | .ok t => writeWords (a + 1) ws t

/-! ### Abort entry and reset -/

/-- `raise <cause>(info)` (R255): ABORT and ABORT_REC are written; SEQ, IMG, WR and DONE keep the values
they had before the step, so it is applied to the state before the step. A field that the info leaves
out (`none`) is unspecified: a free value (log entry 8). The words in flight are discarded (R35). -/
def State.raise (cause : AbortCause) (slot : Option SlotId) (opIndex : Option Nat)
    (field : AbortField) (value : Int) (s : State) : State :=
  { s with
    abort := true
    abortRec :=
      { cause := cause
        slot := slot.getD (Config.freeSlot s.free)
        opIndex := opIndex.getD (Config.freeOpIndex s.free)
        field := field
        value := value }
    ws := []
    free := s.free + 1 }

/-- The numeric codes of the causes (R250). -/
def causeCode : AbortCause → Nat
  | .encodingRange => 1
  | .layoutMismatch => 2

/-- The block's reset, at any time (R280): the state of R26; the ROM and `CFG` stay; the free-value
counter goes on, so that the unspecified `ABORT_REC` is a fresh free value. -/
def State.hostReset (s : State) : State :=
  { State.resetWith s.cfg with
    rom := s.rom
    abortRec := Config.freeAbortRec s.free
    free := s.free + 1 }

/-! ### The result of unit ENC inside ENC.PROG -/

/-- `ws[i] <- r` (R121). -/
def State.pushWord (w : Word) (s : State) : State := { s with ws := s.ws ++ [w] }

/-- What ENC.PROG and ASM.STEP do with the answer of one encode operation: the word is appended
(R121), or the pass is aborted with the slot at SEQ, the position of the micro-op in its program, and
the field and value that ENC names (R118, R164, R251). -/
def State.encoded (r : Except RangeFailure Word) (s : State) : Host.Outcome State Fault Refusal :=
  match r with
  | .ok w => .next (s.pushWord w)
  | .error e =>
    .next (s.raise .encodingRange (order s.seq) (some s.ws.length) e.field e.value)

/-! ### The read primitive -/

/-- The sizes `MemRead` takes: 1, 2 or 4 bytes (R54). -/
inductive AccessSize where
  | byte | half | word
deriving DecidableEq, Repr

/-- The number of bytes of an access. -/
def AccessSize.bytes : AccessSize → Nat
  | .byte => 1
  | .half => 2
  | .word => 4

/-- The bytes from offset `b` up, if all have values. -/
def Memory.getBytes (m : Memory) (b : Nat) : Nat → Option (List Byte)
  | 0 => some []
  | n + 1 =>
    match m.get b, Memory.getBytes m (b + 1) n with
    | some v, some vs => some (v :: vs)
    | _, _ => none

/-- `MemRead(b, n)`: the little-endian integer of `n` bytes from byte offset `b`; enabled only when
`DONE = 1`; before DONE and after ABORT the image has no readable value (R54). -/
def memRead (s : State) (b : Nat) (n : AccessSize) : Host.Outcome Nat Fault Refusal :=
  if !s.done || s.abort then .refused .imageNotReadable
  else if imageBytes < b + n.bytes then .fault .imageRange
  else match s.img.getBytes b n.bytes with
    | some bs => .next (littleEndian bs)
    | none => .refused .unwrittenByte

end Sys2Proof.Machine
end

