-- ==== Sys2Proof/Machine/Builder.lean ====
section
/-! DEFINITION. The builder call `CFG.build(s, rev, dt)` (`spec/43_builder_interface.md` R200 to R205),
the placing of one micro-op where the sequencer will ask for it, and the builder's contract as
hypotheses a statement may name (R222). -/

namespace Sys2Proof.Machine

/-- A builder's answer under a revision (R200, R228). -/
def answerFor : BuilderAnswer → Rev → Option BuildResult
  | .anyRev r, _ => r
  | .perRev n _, .narrow => n
  | .perRev _ w, .wide => w

/-- Whether a row answers for a descriptor table. -/
def answersTable (e : BuilderEntry) (dt : DescriptorTable) : Bool :=
  match e.table with
  | none => true
  | some t => t == dt

/-- `CFG.build(slot, rev, dt)` (R200): the first row for the slot and the table; no row, no program
(log entry 4). -/
def build (c : Cfg) (slot : SlotId) (rev : Rev) (dt : DescriptorTable) : Option BuildResult :=
  match c.build.find? fun e => decide (e.slot = slot) && answersTable e dt with
  | none => none
  | some e => answerFor e.answer rev

/-- `p <- (r = none) ? [] : r.program` (R164, R167). -/
def programOf : Option BuildResult → List Instr
  | none => []
  | some r => r.program

/-- The diagnostic label of an answer; an empty result has none (R167, R203). -/
def labelOf : Option BuildResult → Option String
  | none => none
  | some r => if r.program = [] then none else some r.label

/-- The revision of the pass: REV sampled at the first step, the sample after it (R172). -/
def revOf (s : State) : Rev := if s.seq = 0 then s.cfg.rev else s.revSample

/-- The micro-program the builder returns for a slot in this step (R164): ASM passes the sampled
revision and the ROM (R172, R173). -/
def programFor (s : State) (slot : SlotId) : List Instr :=
  programOf (build s.cfg slot (revOf s) s.rom)

/-- What a step passes to the host's log: the slot and the builder's label, when there is one (R164,
R203). It is no part of any state (D27). -/
def stepLabel (s : State) : Option (SlotId × String) :=
  if s.enabled then
    (order s.seq).bind fun slot =>
      (labelOf (build s.cfg slot (revOf s) s.rom)).map fun text => (slot, text)
  else none

/-- The state in which the builder answers the one micro-op `i` for the slot at SEQ, under either
revision and whatever the table; nothing else changes (log entry 15). -/
def presentInstr (i : Instr) (s : State) : State :=
  match order s.seq with
  | none => s
  | some slot =>
    { s with cfg := { s.cfg with
        build := ⟨slot, none, .anyRev (some ⟨[i], ""⟩)⟩ :: s.cfg.build } }

/-- `presentInstr` of the instruction the decoder reads from a table word. -/
def presentWord (s : State) (nbits w : Nat) : State :=
  match decodeTableWord nbits w with
  | none => s
  | some i => presentInstr i s

/-! ### The builder's contract

Nothing below is enforced by the block (R222); each is a hypothesis a statement may take. -/

/-- R202: a builder's program fits its window. -/
def lengthContract (c : Cfg) : Prop :=
  ∀ slot rev, (programOf (build c slot rev c.dtInit)).length ≤ window slot

/-- R201, R291: every immediate a builder hands over fits its field. -/
def rangeContract (c : Cfg) : Prop :=
  ∀ slot rev, programWf (programOf (build c slot rev c.dtInit)) = true

/-- R204: no program for a slot whose opcode is unassigned. -/
def unassignedContract (c : Cfg) : Prop :=
  ∀ slot rev k, opcodeOfSlot slot = some k → c.dtInit[k] = none →
    build c slot rev c.dtInit = none

/-- R204, R61: no program for an unoccupied slot number. A configuration of this hardware keeps it
(`Cfg.unoccupiedOk`). -/
def unoccupiedContract (c : Cfg) : Prop :=
  ∀ k rev,
    (k ∉ c.svcSlots → build c (.svc k) rev c.dtInit = none) ∧
    (k ∉ c.jcSlots → build c (.jc k) rev c.dtInit = none) ∧
    (k ∉ c.miscSlots → build c (.misc k) rev c.dtInit = none)

/-- An ALU micro-op with end-of-instruction and advance-IP set (R94). -/
def endsInstruction : Instr → Bool
  | .alur _ _ _ _ _ eoi adv _ => eoi && adv
  | .alui _ _ _ _ _ eoi adv _ => eoi && adv
  | _ => false

/-- R209: every family program ends on an ALU op with `eoi` and `adv`. -/
def endMarkContract (c : Cfg) : Prop :=
  ∀ slot rev r, (opcodeOfSlot slot).isSome → build c slot rev c.dtInit = some r →
    r.program ≠ [] → (r.program.getLast?.map endsInstruction) = some true

/-- R226: the register-register program of AND is the one AND micro-op on the operand
pseudo-registers. -/
def andContract (c : Cfg) : Prop :=
  ∀ rev k code op1 op2, c.opcodeOf.lookup .and = some k → c.aluCode.lookup .and = some code →
    c.regIndex.lookup .firstOperand = some op1 → c.regIndex.lookup .secondOperand = some op2 →
    ∃ size, programOf (build c (.rr k) rev c.dtInit) =
      [.alur (.bin code) op1 op2 op1 true true true size]

/-- R219, R228: some occupied service slot holds the reset routine, whose first micro-op loads 0 into
the address-mode register under either revision. -/
def resetRoutineContract (c : Cfg) : Prop :=
  ∃ k, k ∈ c.svcSlots ∧ ∀ rev reg, c.regIndex.lookup .addressMode = some reg →
    (programOf (build c (.svc k) rev c.dtInit)).head? = some (.ldc reg 0)

/-- R204, R210: no program for a slot whose opcode is invalid for its family. Which slots are so is the
argument `invalid`: by R210 load-effective-address has no register-register form, and the control-register
accessors are invalid in the register-register or the register-immediate family. The rest of R210's list
uses terms that N12 gives no meaning, and is left to the argument (log entry 27). -/
def invalidContract (c : Cfg) (invalid : SlotId → Bool) : Prop :=
  (∀ k, (.loadEffectiveAddress, k) ∈ c.opcodeOf → invalid (.rr k) = true) ∧
  (∀ k, (.readControlRegister, k) ∈ c.opcodeOf ∨ (.writeControlRegister, k) ∈ c.opcodeOf →
    invalid (.rr k) = true ∨ invalid (.ri k) = true) ∧
  ∀ slot rev, invalid slot = true → build c slot rev c.dtInit = none

/-- R204, R220: no program for a routine that does not exist under a revision. Which do not is the argument
`absent`: by R220 some jump/call form is absent under the narrow revision only, and by R228 only the
jump/call and control-register slots may differ. -/
def absentContract (c : Cfg) (absent : SlotId → Rev → Bool) : Prop :=
  (∃ k, k ∈ c.jcSlots ∧ absent (.jc k) .narrow = true ∧ absent (.jc k) .wide = false) ∧
  (∀ slot, slot.mayReadRev = false → absent slot .narrow = absent slot .wide) ∧
  ∀ slot rev, absent slot rev = true → build c slot rev c.dtInit = none

/-- R212: the two register builders answer a program for every opcode with a descriptor, unless it is
invalid for the family (`invalid` as in `invalidContract`). -/
def nonEmptyContract (c : Cfg) (invalid : SlotId → Bool) : Prop :=
  ∀ k rev slot, slot = .rr k ∨ slot = .ri k → c.dtInit[k].isSome = true → invalid slot = false →
    programOf (build c slot rev c.dtInit) ≠ []

/-- Whether a micro-op is an ALU one. -/
def isAluOp : Instr → Bool
  | .alur _ _ _ _ _ _ _ _ | .alui _ _ _ _ _ _ _ _ => true
  | _ => false

/-- The number of terms that an addressing mode selects (R205, R207). -/
def ModeTerms.count (t : ModeTerms) : Nat :=
  t.scaledIndex.toNat + t.base.toNat + t.displacement.toNat

/-- R206, R207, R208: a memory-shape program is an effective-address part and a tail of 1 to 5 micro-ops;
the part has one ALU micro-op for each selected term, or is one load-constant of 0 when there is none. -/
def effectiveAddressContract (c : Cfg) : Prop :=
  ∀ m k rev slot, slot = .mi m k ∨ slot = .rm m k ∨ slot = .mr m k →
    programOf (build c slot rev c.dtInit) ≠ [] →
    ∃ address tail, programOf (build c slot rev c.dtInit) = address ++ tail ∧
      1 ≤ tail.length ∧ tail.length ≤ 5 ∧
      if ModeTerms.count c.modeBits[m] = 0 then ∃ reg, address = [.ldc reg 0]
      else address.length = ModeTerms.count c.modeBits[m] ∧ address.all isAluOp = true

/-- R213, R214: the two control-register programs dispatch with a jump with register offset. -/
def dispatcherContract (c : Cfg) : Prop :=
  ∀ rev slot, slot = .crr ∨ slot = .crw →
    ∃ creg cond oreg, Instr.jr creg cond oreg ∈ programOf (build c slot rev c.dtInit)

/-- An ALU micro-op with end-of-instruction set and advance-IP clear (R94). -/
def endsWithoutAdvance : Instr → Bool
  | .alur _ _ _ _ _ eoi adv _ => eoi && !adv
  | .alui _ _ _ _ _ eoi adv _ => eoi && !adv
  | _ => false

/-- R218: every service routine but the reset routine ends on a micro-op that ends the instruction without
advancing the instruction pointer. The source names six routines for the eight occupied slots (R61, N9), so
which of them follow the template is the argument `template`: at least five do (log entry 28). -/
def serviceContract (c : Cfg) (template : List (Fin 16)) : Prop :=
  template.Nodup ∧ 5 ≤ template.length ∧ (∀ k, k ∈ template → k ∈ c.svcSlots) ∧
  ∀ k rev op, k ∈ template →
    (programOf (build c (.svc k) rev c.dtInit)).getLast? = some op → endsWithoutAdvance op = true

/-- R221: a miscellaneous routine has 1 to 11 micro-ops. -/
def miscContract (c : Cfg) : Prop :=
  ∀ k rev, k ∈ c.miscSlots →
    1 ≤ (programOf (build c (.misc k) rev c.dtInit)).length ∧
    (programOf (build c (.misc k) rev c.dtInit)).length ≤ 11

end Sys2Proof.Machine
end

