-- ==== Sys2Proof/Machine/Alu.lean ====
section
/-! DEFINITION. The two ALU micro-ops (`spec/40_microop_encoder.md` R111, R112). Encoding a micro-op is
all the block does with it (R12, N14): its word is appended to the words of the program, or the pass is
aborted. -/

namespace Sys2Proof.Machine

/-- `ENC.ALUR` (R111): total. -/
def execAlur (kind : AluKind) (srcA srcB dest : Reg6) (uf eoi adv : Bool) (size : Size3) (s : State) :
    Host.Outcome State Fault Refusal :=
  s.encoded (.ok (encAlur kind srcA srcB dest uf eoi adv size))

/-- `ENC.ALUI` (R112): an immediate outside [-64, 63] aborts the pass (R118, R251). -/
def execAlui (kind : AluKind) (srcA : Reg6) (imm : Int) (dest : Reg6) (uf eoi adv : Bool) (size : Size3)
    (s : State) : Host.Outcome State Fault Refusal :=
  s.encoded (encAlui kind srcA imm dest uf eoi adv size)

end Sys2Proof.Machine
end

