-- ==== Sys2Proof/Machine/Const.lean ====
section
/-! DEFINITION. The load-constant micro-op (`spec/40_microop_encoder.md` R113). -/

namespace Sys2Proof.Machine

/-- `ENC.LDC` (R113): an immediate outside [-8388608, 8388607] aborts the pass (R118, R251). -/
def execLdc (dest : Reg6) (imm : Int) (s : State) : Host.Outcome State Fault Refusal :=
  s.encoded (encLdc dest imm)

end Sys2Proof.Machine
end

