-- ==== Sys2Proof/Machine/Jump.lean ====
section
/-! DEFINITION. The relative jumps and the canonical no-operation (`spec/40_microop_encoder.md` R114 to
R116). -/

namespace Sys2Proof.Machine

/-- `ENC.JI` (R114): an offset outside [-8192, 8191] aborts the pass (R118, R251). -/
def execJi (creg : Reg6) (cond : Cond4) (off : Int) (s : State) : Host.Outcome State Fault Refusal :=
  s.encoded (encJi creg cond off)

/-- `ENC.JR` (R115) with the register-offset layout of the configuration (R89): total. -/
def execJr (creg : Reg6) (cond : Cond4) (oreg : Reg6) (s : State) : Host.Outcome State Fault Refusal :=
  s.encoded (.ok (encJr s.cfg.jregBits creg cond oreg))

/-- `NOP` (R116): the constant word. -/
def execNop (s : State) : Host.Outcome State Fault Refusal :=
  s.encoded (.ok nopWord)

end Sys2Proof.Machine
end

