-- ==== Sys2Proof/Machine/Dispatch.lean ====
section
/-! DEFINITION. One arm per constructor of `Instr`: what the block does with one micro-op of a program
(`ENC.<variant>` inside ENC.PROG, `spec/40_microop_encoder.md` R121). -/

namespace Sys2Proof.Machine

def exec (i : Instr) (s : State) : Host.Outcome State Fault Refusal :=
  match i with
  | .alur kind srcA srcB dest uf eoi adv size => Sys2Proof.Machine.execAlur kind srcA srcB dest uf eoi adv size s
  | .alui kind srcA imm dest uf eoi adv size => Sys2Proof.Machine.execAlui kind srcA imm dest uf eoi adv size s
  | .ldc dest imm => Sys2Proof.Machine.execLdc dest imm s
  | .ji creg cond off => Sys2Proof.Machine.execJi creg cond off s
  | .jr creg cond oreg => Sys2Proof.Machine.execJr creg cond oreg s
  | .nop => Sys2Proof.Machine.execNop s

end Sys2Proof.Machine
end

