-- ==== Sys2Proof/Machine/Assembler.lean ====
section
/-! DEFINITION. Unit ASM (`spec/42_image_assembler.md` R164 to R178): one step builds, encodes and places
one slot; the pass repeats it. -/

namespace Sys2Proof.Machine

/-- `ENC.PROG(p)` (R121): each micro-op in order, stopping at the first one that aborts the pass. -/
def encProg : List Instr → State → Host.Outcome State Fault Refusal
  | [], s => .next s
  | i :: is, s =>
    match exec i s with
    | .next t => if t.abort then .next t else encProg is t
    | .fault f => .fault f
    | .refused r => .refused r

/-- The words of a window: the program from the base, then NOP (R165, R166). -/
def windowWords (n : Nat) (ws : List Word) : List Word :=
  ws ++ List.replicate (n - ws.length) nopWord

/-- `ASM.PLACE(slot, ws)` (R165). -/
def place (slot : SlotId) (ws : List Word) (s : State) : Except WriteError State :=
  writeWords (base s.cfg slot) (windowWords (window slot) ws) s

/-- `pc <- SEQ + 1`; nothing of the program remains (R35), and the sampled revision is kept (R172). -/
def State.advance (s : State) : State :=
  { s with seq := s.seq + 1, ws := [], revSample := revOf s }

/-- The word FINISH reports when some written flag is 0: one of the unwritten words, a free choice
(R171, log entry 9). -/
def reportedUnwritten (s : State) : Nat :=
  let l := unwritten s.wr
  l.getD (Config.freeChoice s.free % l.length) 0

/-- `ASM.FINISH` (R171) on the state `t`; `before` is the state before the step, which an abort keeps.
At SEQ = 882 the slot of the record is unspecified (R255). -/
def finish (before t : State) : Host.Outcome State Fault Refusal :=
  if allWritten t.wr then .next t.setDone
  else .next (before.raise .layoutMismatch none none .overlap (reportedUnwritten t))

/-- The end of a step, after ENC.PROG: PLACE, SEQ + 1, and FINISH at 882 (R164). A word written twice
aborts the pass with the values from before the step (R53, R255). -/
def completeSlot (before : State) (slot : SlotId) (t : State) : Host.Outcome State Fault Refusal :=
  match place slot t.ws t with
  | .error (.outside _) => .fault .imageRange
  | .error (.overlap a) => .next (before.raise .layoutMismatch (some slot) none .overlap a)
  | .ok u => if u.advance.seq = slotCount then finish before u.advance else .next u.advance

/-- `s` with the word list `ws` in flight (R121). -/
def State.withWords (ws : List Word) (s : State) : State := { s with ws := ws }

/-- The state in which ENC.PROG starts: no words yet (R121). -/
def State.startProgram (s : State) : State := s.withWords []

/-- One slot, when a step is enabled (R164): the length check, ENC.PROG, then the end of the step. -/
def asmSlot (s : State) (slot : SlotId) : Host.Outcome State Fault Refusal :=
  if window slot < (programFor s slot).length then
    .next (s.raise .layoutMismatch (some slot) none .length (programFor s slot).length)
  else
    match encProg (programFor s slot) s.startProgram with
    | .next t => if t.abort then .next t else completeSlot s slot t
    | .fault f => .fault f
    | .refused r => .refused r

/-- `ASM.STEP` (R164): enabled exactly when ABORT = 0, DONE = 0 and SEQ < 882. -/
def asmStep (s : State) : Host.Outcome State Fault Refusal :=
  if s.abort then .fault .passAborted
  else if s.done then .fault .passDone
  else match order s.seq with
    | none => .fault .seqBeyondPlan
    | some slot => asmSlot s slot

/-- `ASM.RUN` (R170): at most `n` steps, until DONE or ABORT. -/
def asmRun : Nat → State → Host.Outcome State Fault Refusal
  | 0, s => .next s
  | n + 1, s =>
    if s.abort || s.done then .next s
    else match asmStep s with
      | .next t => asmRun n t
      | .fault f => .fault f
      | .refused r => .refused r

end Sys2Proof.Machine
end

