-- ==== Sys2Proof/Machine/Step.lean ====
section
/-! DEFINITION. The step of the machine: one slot of the image (`spec/42_image_assembler.md` R164). -/

namespace Sys2Proof.Machine

/-- One step is `ASM.STEP` (R164). -/
def step (s : State) : Host.Outcome State Fault Refusal := asmStep s

/-- `s` with the instruction of a table word where the next step takes its program: the builder's answer
for the slot at SEQ is that one micro-op (log entry 15). -/
def State.withFetchWord (s : State) (nbits w : Nat) : State := presentWord s nbits w

end Sys2Proof.Machine
end

