-- ==== Sys2Proof/Machine/Rom.lean ====
section
/-! DEFINITION. Unit DT, the opcode descriptor ROM (`spec/41_descriptor_table.md` R140 to R147). State
holds the entries as records, as R141 allows; the 10-bit entry format is given by the two functions
below. -/

namespace Sys2Proof.Machine

/-- `DT.INIT` (R142): the ROM takes the contents `CFG.dt_init`. -/
def initRom (s : State) : State := { s with rom := s.cfg.dtInit }

/-- `DT.LOOKUP(c)` (R143): total on the 32 codes, no effect on any state. -/
def dtLookup (s : State) (c : Fin 32) : Option Descriptor := s.rom[c]

/-- The 10-bit ROM entry of an optional descriptor (R141): valid, na, alu, uf, sx, st. -/
def romEntry : Option Descriptor → BitVec 10
  | none => 0#10
  | some d =>
    match d.alu with
    | none => 1#1 ++ 1#1 ++ 0#5 ++ flagBit d.uf ++ flagBit d.sx ++ flagBit d.st
    | some k => 1#1 ++ 0#1 ++ k.code ++ flagBit d.uf ++ flagBit d.sx ++ flagBit d.st

/-- The descriptor a 10-bit entry at index `c` stands for (R141: the index is the code); `none` for a
pattern that is no entry (bits that R141 says are 0, or an alu code of 16..29). -/
def descriptorOfEntry (c : Fin 32) (e : BitVec 10) : Option (Option Descriptor) :=
  if e.getLsbD 9 then
    if e.getLsbD 8 then
      if e.extractLsb' 3 5 = 0#5 then
        some (some ⟨c, none, e.getLsbD 2, e.getLsbD 1, e.getLsbD 0⟩)
      else none
    else match kindOfCode (e.extractLsb' 3 5) with
      | some k => some (some ⟨c, some k, e.getLsbD 2, e.getLsbD 1, e.getLsbD 0⟩)
      | none => none
  else if e = 0#10 then some none
  else none

end Sys2Proof.Machine
end

