-- ==== Sys2Proof/Machine/HostPort.lean ====
section
/-! DEFINITION. What the host can do to the block (`spec/00_scope.md` R17, `spec/70_reset_and_hazards.md`
R283, R284): configure it, reset it (`State.hostReset`), run the pass, and take the image or the abort
record, and the log of labels. -/

namespace Sys2Proof.Machine

/-- The host fixes `CFG` and with it the ROM (R283 (1), (2)). In the middle of a pass a changed `CFG` has
no meaning (R283). -/
def configure (c : Cfg) (s : State) : Host.Outcome State Fault Refusal :=
  if s.seq = 0 || s.done || s.abort then .next (initRom { s with cfg := c })
  else .refused .configurationInPass

/-- The bytes at offsets `b, b+1, …`, each by `MemRead(b, 1)`. -/
def emitFrom (s : State) (b : Nat) : Nat → Host.Outcome (List Byte) Fault Refusal
  | 0 => .next []
  | n + 1 =>
    match memRead s b .byte, emitFrom s (b + 1) n with
    | .next v, .next vs => .next (BitVec.ofNat 8 v :: vs)
    | .next _, .fault f => .fault f
    | .next _, .refused r => .refused r
    | .fault f, _ => .fault f
    | .refused r, _ => .refused r

/-- `ASM.EMIT` (R175): the 32 768 bytes of the image, enabled only when `DONE = 1`. -/
def emit (s : State) : Host.Outcome (List Byte) Fault Refusal :=
  if !s.done || s.abort then .refused .imageNotReadable
  else emitFrom s 0 imageBytes

/-- What the host receives at the end of a pass (R10, R170). -/
inductive PassResult where
  | image (bytes : List Byte)
  | abort (record : AbortRec)
deriving DecidableEq, Repr

/-- `assemble(CFG) = image` or `abort(ABORT_REC)` (R170): a pass from the reset state. -/
def assemble (c : Cfg) : Host.Outcome PassResult Fault Refusal :=
  match asmRun slotCount (State.resetWith c) with
  | .next t =>
    if t.abort then .next (.abort t.abortRec)
    else match emit t with
      | .next bytes => .next (.image bytes)
      | .fault f => .fault f
      | .refused r => .refused r
  | .fault f => .fault f
  | .refused r => .refused r

/-- The labels that at most `n` steps pass to the host's log, in order (R164, R203). -/
def runLog : Nat → State → List (SlotId × String)
  | 0, _ => []
  | n + 1, s =>
    (stepLabel s).toList ++ match asmStep s with
      | .next t => runLog n t
      | .fault _ => []
      | .refused _ => []

/-- All that the host receives from a pass: the image or the record, and the log of labels (R203, R264). -/
structure PassReport where
  result : PassResult
  log : List (SlotId × String)
deriving DecidableEq, Repr

/-- A pass with its log. -/
def assembleWithLog (c : Cfg) : Host.Outcome PassReport Fault Refusal :=
  match assemble c with
  | .next r => .next ⟨r, runLog slotCount (State.resetWith c)⟩
  | .fault f => .fault f
  | .refused r => .refused r

end Sys2Proof.Machine
end

