-- ==== Sys2Proof/Safety.lean ====
section
/-! DEFINITION. What statements about the block mean by a good state: the invariant of the pass
(`spec/10_state.md` R20 to R26, `spec/20_memory.md` R69), and the words of the image. -/

namespace Sys2Proof.Machine

/-- The word address at which the slot number `n` begins; the end of the image from 882 on (R161, R162). -/
def slotStart (c : Cfg) (n : Nat) : Nat :=
  match order n with
  | some slot => base c slot
  | none => imageWords

/-- The states a pass of a configuration of this hardware goes through, seen between steps. -/
structure State.Inv (s : State) : Prop where
  /-- R6: the configuration is one of this hardware. -/
  cfg_wf : s.cfg.wf = true
  /-- R142, R146: the ROM holds `CFG.dt_init`. -/
  rom_init : s.rom = s.cfg.dtInit
  /-- The image is in canonical form. -/
  img_wf : s.img.wf = true
  /-- R21, R69: exactly the words of the slots before SEQ are written. -/
  written_below : ∀ a, a < imageWords → s.written a = decide (a < slotStart s.cfg s.seq)
  /-- R20, R21: a byte of the image has a value exactly when its word is written. -/
  value_iff_written : ∀ b, (s.img.get b).isSome = (decide (b < imageBytes) && s.written (b / 4))
  /-- R23. -/
  seq_le : s.seq ≤ slotCount
  /-- R22, R171: DONE exactly when the pass is over. -/
  done_iff : s.done = true ↔ s.seq = slotCount
  /-- R22: never both. -/
  not_both : ¬(s.done = true ∧ s.abort = true)
  /-- R35: nothing of a micro-program remains between steps. -/
  no_words : s.ws = []

/-- The word `i` of the window of a slot whose program has the words `ws` (R165). -/
def windowWord (ws : List Word) (i : Nat) : Word := ws.getD i nopWord

/-- The offset of the bytes that a slot's window covers (R51, R165). -/
def inWindow (c : Cfg) (slot : SlotId) (b : Nat) : Prop :=
  4 * base c slot ≤ b ∧ b < 4 * (base c slot + window slot)

/-- What a micro-op's encode operation leaves as it was: everything but the words in flight and, on an
abort, ABORT, ABORT_REC and the free-value counter. -/
def sameButEncoding (s t : State) : Prop :=
  t.img = s.img ∧ t.wr = s.wr ∧ t.done = s.done ∧ t.seq = s.seq ∧ t.rom = s.rom ∧
    t.revSample = s.revSample ∧ t.cfg = s.cfg

/-- The state of an abort reached from `s` (R255), with the unspecified record fields open. -/
def abortedFrom (s t : State) (cause : AbortCause) (field : AbortField) (value : Int) : Prop :=
  sameButEncoding s t ∧ t.abort = true ∧ t.abortRec.cause = cause ∧ t.abortRec.field = field ∧
    t.abortRec.value = value

/-- A builder's answer with its label changed. -/
def relabelResult (f : String → String) (r : BuildResult) : BuildResult := { r with label := f r.label }

/-- The configuration with every label of its builders changed by `f` (R203: labels are opaque text). -/
def relabel (f : SlotId → String → String) (c : Cfg) : Cfg :=
  { c with build := c.build.map fun e =>
      { e with answer := match e.answer with
          | .anyRev r => .anyRev (r.map (relabelResult (f e.slot)))
          | .perRev n w =>
            .perRev (n.map (relabelResult (f e.slot))) (w.map (relabelResult (f e.slot))) } }

end Sys2Proof.Machine
end

