-- ==== Sys2Proof/Certificates/Slice0/Obligations.lean ====
section
/-! DEFINITION. The statements about the block, taken from the numbered rules of spec/. -/

open Sys2Proof Sys2Proof.Machine

/-! ### Unit ENC: what each micro-op does

That executing a micro-op appends its word to the list `ws` of R121 is the model's reading of ENC.PROG
(log entry 5). -/

/-- R111 to R115: the bits of the word of each encode operation, the field of each range of bits, and the
immediates that are rejected, with the field and the value that the failure names. -/
def Obligations.EncodersGiveTheFormats : Prop :=
  (∀ (kind : AluKind) (srcA srcB dest : Reg6) (uf eoi adv : Bool) (size : Size3),
    let w := encAlur kind srcA srcB dest uf eoi adv size
    field 31 1 w = 0#1 ∧ field 30 1 w = flagBit adv ∧ field 27 3 w = size ∧ field 21 6 w = srcA ∧
      field 15 6 w = srcB ∧ field 9 6 w = dest ∧ field 4 5 w = kind.code ∧ field 3 1 w = flagBit uf ∧
      field 2 1 w = flagBit eoi ∧ field 0 2 w = 0b00#2) ∧
  (∀ (kind : AluKind) (srcA dest : Reg6) (imm : Int) (uf eoi adv : Bool) (size : Size3),
    if imm < -64 ∨ 63 < imm then encAlui kind srcA imm dest uf eoi adv size = .error ⟨.imm7, imm⟩
    else ∃ w, encAlui kind srcA imm dest uf eoi adv size = .ok w ∧
      (field 31 1 w ++ field 15 6 w : BitVec 7) = tc 7 imm ∧ field 30 1 w = flagBit adv ∧
      field 27 3 w = size ∧ field 21 6 w = srcA ∧ field 9 6 w = dest ∧ field 4 5 w = kind.code ∧
      field 3 1 w = flagBit uf ∧ field 2 1 w = flagBit eoi ∧ field 0 2 w = 0b01#2) ∧
  (∀ (dest : Reg6) (imm : Int),
    if imm < -8388608 ∨ 8388607 < imm then encLdc dest imm = .error ⟨.imm24, imm⟩
    else ∃ w, encLdc dest imm = .ok w ∧ (field 15 17 w ++ field 2 7 w : BitVec 24) = tc 24 imm ∧
      field 9 6 w = dest ∧ field 0 2 w = 0b10#2) ∧
  (∀ (creg : Reg6) (cond : Cond4) (off : Int),
    if off < -8192 ∨ 8191 < off then encJi creg cond off = .error ⟨.imm14, off⟩
    else ∃ w, encJi creg cond off = .ok w ∧
      (field 31 1 w ++ field 15 6 w ++ field 2 7 w : BitVec 14) = tc 14 off ∧ field 27 4 w = cond ∧
      field 21 6 w = creg ∧ field 9 6 w = 0#6 ∧ field 0 2 w = 0b11#2) ∧
  (∀ (c : Cfg) (creg : Reg6) (cond : Cond4) (oreg : Reg6), c.jregOk = true →
    let w := encJr c.jregBits creg cond oreg
    jregPart w = c.jregBits[oreg.toFin] ∧ field 27 4 w = cond ∧ field 21 6 w = creg ∧
      field 0 2 w = 0b11#2)

/-- From R111, R121: `ENC.ALUR` is total and gives the word of the arithmetic formula; it is appended to
the words of the program and nothing else changes. -/
def Obligations.AlurPushesItsWord : Prop :=
  ∀ (kind : AluKind) (srcA srcB dest : Reg6) (uf eoi adv : Bool) (size : Size3) (s : State),
    exec (.alur kind srcA srcB dest uf eoi adv size) s = .next (s.pushWord (BitVec.ofNat 32
      (adv.toNat * 2 ^ 30 + size.toNat * 2 ^ 27 + srcA.toNat * 2 ^ 21 + srcB.toNat * 2 ^ 15 +
        dest.toNat * 2 ^ 9 + kind.code.toNat * 2 ^ 4 + uf.toNat * 8 + eoi.toNat * 4)))

/-- From R112, R121, R251: `ENC.ALUI` gives the word with the immediate's pattern `u = imm mod 128`
split over bit 31 and bits 20:15; an immediate outside [-64, 63] gives `EncodingRange` with `imm7` and
the integer. -/
def Obligations.AluiPushesItsWordOrAborts : Prop :=
  ∀ (kind : AluKind) (srcA dest : Reg6) (imm : Int) (uf eoi adv : Bool) (size : Size3) (s : State),
    (-64 ≤ imm ∧ imm ≤ 63 →
      exec (.alui kind srcA imm dest uf eoi adv size) s = .next (s.pushWord (BitVec.ofNat 32
        ((imm % 128).toNat / 64 * 2 ^ 31 + adv.toNat * 2 ^ 30 + size.toNat * 2 ^ 27 +
          srcA.toNat * 2 ^ 21 + (imm % 128).toNat % 64 * 2 ^ 15 + dest.toNat * 2 ^ 9 +
          kind.code.toNat * 2 ^ 4 + uf.toNat * 8 + eoi.toNat * 4 + 1)))) ∧
    (imm < -64 ∨ 63 < imm →
      ∃ t, exec (.alui kind srcA imm dest uf eoi adv size) s = .next t ∧
        abortedFrom s t .encodingRange .imm7 imm ∧ t.abortRec.opIndex = s.ws.length)

/-- From R113, R121, R251: `ENC.LDC` gives the word with the pattern `u = imm mod 2^24` split over bits
31:15 and 8:2; an immediate outside [-8388608, 8388607] gives `EncodingRange` with `imm24` and the
integer. -/
def Obligations.LdcPushesItsWordOrAborts : Prop :=
  ∀ (dest : Reg6) (imm : Int) (s : State),
    (-8388608 ≤ imm ∧ imm ≤ 8388607 →
      exec (.ldc dest imm) s = .next (s.pushWord (BitVec.ofNat 32
        ((imm % 2 ^ 24).toNat / 128 * 2 ^ 15 + dest.toNat * 2 ^ 9 +
          (imm % 2 ^ 24).toNat % 128 * 4 + 2)))) ∧
    (imm < -8388608 ∨ 8388607 < imm →
      ∃ t, exec (.ldc dest imm) s = .next t ∧ abortedFrom s t .encodingRange .imm24 imm ∧
        t.abortRec.opIndex = s.ws.length)

/-- From R114, R121, R251: `ENC.JI` gives the word with the pattern `u = off mod 2^14` split over bit
31, bits 20:15 and bits 8:2, and bits 14:9 zero; an offset outside [-8192, 8191] gives `EncodingRange`
with `imm14`. -/
def Obligations.JiPushesItsWordOrAborts : Prop :=
  ∀ (creg : Reg6) (cond : Cond4) (off : Int) (s : State),
    (-8192 ≤ off ∧ off ≤ 8191 →
      exec (.ji creg cond off) s = .next (s.pushWord (BitVec.ofNat 32
        ((off % 2 ^ 14).toNat / 8192 * 2 ^ 31 + cond.toNat * 2 ^ 27 + creg.toNat * 2 ^ 21 +
          (off % 2 ^ 14).toNat / 128 % 64 * 2 ^ 15 + (off % 2 ^ 14).toNat % 128 * 4 + 3)))) ∧
    (off < -8192 ∨ 8191 < off →
      ∃ t, exec (.ji creg cond off) s = .next t ∧ abortedFrom s t .encodingRange .imm14 off ∧
        t.abortRec.opIndex = s.ws.length)

/-- From R115, R121, for every layout that R89 allows: `ENC.JR` is total and gives the layout's bits
with `cond` at 30:27, `creg` at 26:21 and the tag 11. -/
def Obligations.JrPushesItsWord : Prop :=
  ∀ (creg : Reg6) (cond : Cond4) (oreg : Reg6) (s : State), s.cfg.jregOk = true →
    exec (.jr creg cond oreg) s = .next (s.pushWord (s.cfg.jregBits[oreg.toFin] |||
      BitVec.ofNat 32 (cond.toNat * 2 ^ 27 + creg.toNat * 2 ^ 21 + 3)))

/-- From R97, R116: `NOP` is the word `0x00000003`, what `ENC.JI(0, 0, 0)` gives, with the bytes
`03 00 00 00` in the image. -/
def Obligations.NopPushesTheNoOperationWord : Prop :=
  ∀ s : State, exec .nop s = .next (s.pushWord 0x00000003#32) ∧ exec .nop s = exec (.ji 0 0 0) s ∧
    ∀ a, a < imageWords → ∀ m : Memory,
      (m.setWord a nopWord).get (4 * a) = some 3#8 ∧ (m.setWord a nopWord).get (4 * a + 1) = some 0#8 ∧
      (m.setWord a nopWord).get (4 * a + 2) = some 0#8 ∧ (m.setWord a nopWord).get (4 * a + 3) = some 0#8

/-- The frame and the completion of every micro-op (R110, R121, R255): executing one always answers a
next state; IMG (every byte of it), WR, DONE, SEQ, the ROM, the sampled REV and CFG stay; a well-formed
one appends one word and changes nothing else, an ill-formed one only sets ABORT and ABORT_REC. -/
def Obligations.EncodingLeavesEverythingElse : Prop :=
  ∀ (i : Instr) (s : State), ∃ t, exec i s = .next t ∧ sameButEncoding s t ∧
    (∀ b, t.img.get b = s.img.get b) ∧
    (i.wf = true → t.abort = s.abort ∧ t.abortRec = s.abortRec ∧ t.free = s.free ∧
      ∃ w, t.ws = s.ws ++ [w]) ∧
    (i.wf = false → t.abort = true ∧ t.abortRec.cause = .encodingRange ∧
      t.abortRec.opIndex = s.ws.length ∧ (∀ slot, order s.seq = some slot → t.abortRec.slot = slot))

/-- R86, R87, R88: where the bits of each immediate stand in its word, and that they reassemble to it;
values outside the range are rejected. -/
def Obligations.ImmediatesReassemble : Prop :=
  (∀ (kind : AluKind) (srcA dest : Reg6) (imm : Int) (uf eoi adv : Bool) (size : Size3),
    if -64 ≤ imm ∧ imm ≤ 63 then
      ∃ w, encAlui kind srcA imm dest uf eoi adv size = .ok w ∧ imm7 w = imm ∧
        field 31 1 w = (tc 7 imm).extractLsb' 6 1 ∧ field 15 6 w = (tc 7 imm).extractLsb' 0 6 ∧
        imm = (field 15 6 w).toNat - 64 * (field 31 1 w).toNat
    else encAlui kind srcA imm dest uf eoi adv size = .error ⟨.imm7, imm⟩) ∧
  (∀ (dest : Reg6) (imm : Int),
    if -8388608 ≤ imm ∧ imm ≤ 8388607 then
      ∃ w, encLdc dest imm = .ok w ∧ imm24 w = imm ∧
        field 15 17 w = (tc 24 imm).extractLsb' 7 17 ∧ field 2 7 w = (tc 24 imm).extractLsb' 0 7
    else encLdc dest imm = .error ⟨.imm24, imm⟩) ∧
  (∀ (creg : Reg6) (cond : Cond4) (off : Int),
    if -8192 ≤ off ∧ off ≤ 8191 then
      ∃ w, encJi creg cond off = .ok w ∧ off14 w = off ∧
        field 31 1 w = (tc 14 off).extractLsb' 13 1 ∧ field 15 6 w = (tc 14 off).extractLsb' 7 6 ∧
        field 2 7 w = (tc 14 off).extractLsb' 0 7
    else encJi creg cond off = .error ⟨.imm14, off⟩)

/-- R119: within one variant no two micro-ops share a word (for `JR` under every allowed layout), words
of different tags differ in bits 1:0, and `JI` and `JR` are not jointly injective. -/
def Obligations.EncodersAreInjective : Prop :=
  (∀ (c : Cfg) (i j : Instr) (w : Word), c.jregOk = true → i.variant = j.variant →
    encode c.jregBits i = .ok w → encode c.jregBits j = .ok w → i = j) ∧
  (∀ (layout : Vector Word 64) (i : Instr) (w : Word), encode layout i = .ok w →
    field 0 2 w = i.variant.tag) ∧
  (∃ c : Cfg, c.jregOk = true ∧ ∃ creg cond oreg off,
    encJi creg cond off = .ok (encJr c.jregBits creg cond oreg))

/-! ### Decoding (R100) -/

/-- Every well-formed micro-op, of every variant and with every operand: a decoder that is told the
variant reads back from the encoded word exactly the micro-op, under every allowed layout (R89, R119). -/
def Obligations.DecodeAsInvertsEncode : Prop :=
  ∀ (c : Cfg) (i : Instr), c.jregOk = true → i.wf = true →
    ∃ w, encode c.jregBits i = .ok w ∧ decodeAs (oregIn c.jregBits) i.variant w = .ok i

/-- The decoder of bare bytes reads back every well-formed micro-op but `JR` from its four bytes, with
the bytes after it left; the word `0x00000003` reads as `NOP` (model's choice in tag 11: log entry 11). -/
def Obligations.DecodeBytesInvertsEncode : Prop :=
  ∀ (oregOf : Word → Option Reg6) (layout : Vector Word 64) (i : Instr) (w : Word) (rest : List Byte),
    i.variant ≠ .jr → encode layout i = .ok w →
    decodeBytes oregOf (wordBytes w ++ rest) = .ok (if w = nopWord then .nop else i, rest)

/-- What the decoder of bare words reads encodes back to the word, and is well formed, under every
layout whose values keep to the mask of R89. -/
def Obligations.DecodedWordsEncodeBack : Prop :=
  ∀ (c : Cfg) (w : Word) (i : Instr), c.jregOk = true →
    decodeWord (oregIn c.jregBits) w = .ok i → i.wf = true ∧ encode c.jregBits i = .ok w

/-- R96: the encoder never emits a tag-00 word with bit 31 set, a `JI` word with a bit of 14:9 set or an
ALU word with kind 16..29; the decoders refuse them; `0x00000000` is a legal `ALUR` word and is not the
padding value. -/
def Obligations.ReservedPatternsAreNeverEmittedAndRefused : Prop :=
  (∀ (layout : Vector Word 64) (i : Instr) (w : Word), encode layout i = .ok w →
    (field 0 2 w = 0b00#2 → field 31 1 w = 0#1) ∧
    (i.variant = .ji → field 9 6 w = 0#6) ∧
    (field 0 2 w = 0b00#2 ∨ field 0 2 w = 0b01#2 →
      (field 4 5 w).toNat < 16 ∨ 29 < (field 4 5 w).toNat)) ∧
  (∀ (w : Word),
    (field 31 1 w = 1#1 → ∀ i, decodeAlur w ≠ .ok i) ∧
    (field 9 6 w ≠ 0#6 → ∀ i, decodeJi w ≠ .ok i) ∧
    (16 ≤ (field 4 5 w).toNat ∧ (field 4 5 w).toNat ≤ 29 →
      ∀ i, decodeAlur w ≠ .ok i ∧ decodeAlui w ≠ .ok i)) ∧
  (∀ layout : Vector Word 64,
    encode layout (.alur (.bin 0) 0 0 0 false false false 0) = .ok 0x00000000#32) ∧
  nopWord ≠ 0x00000000#32

/-- Words written out from the encodings of R81 to R84 and R97 decode to the micro-ops they stand for, and a
pattern that R96 reserves does not decode. That a decoder of bare words reads `0xC8FF81F7` as `JI` and
`0x00000003` as `NOP` is the model's choice: tag 11 alone does not tell (R89; log entries 11 and 13). -/
def Obligations.DecodesTheWordsWrittenOut : Prop :=
  decodeTableWord 32 0x6021026C = some (.alur (.bin 6) 1 2 1 true true true 4) ∧
  decodeTableWord 32 0xEC3FC49D = some (.alui (.bin 9) 33 (-1) 34 true true true 5) ∧
  decodeTableWord 32 0x12340B5A = some (.ldc 5 0x123456) ∧
  decodeTableWord 32 0xC8FF81F7 = some (.ji 7 9 (-3)) ∧
  decodeTableWord 32 0x00000003 = some .nop ∧
  decodeTableWord 32 0x80000000 = none

/-! ### Unit DT -/

/-- R142, R143: after DT.INIT a lookup of any of the 32 codes gives the configuration's entry. -/
def Obligations.LookupGivesTheInitialContents : Prop :=
  ∀ (s : State) (c : Fin 32), dtLookup (initRom s) c = s.cfg.dtInit[c]

/-- R141: the 10-bit entry of a descriptor at its index stands for it, absent and present entries
differ in the valid bit, and the fields stand where the table puts them. -/
def Obligations.RomEntriesStandForDescriptors : Prop :=
  (∀ d : Descriptor, descriptorOfEntry d.code (romEntry (some d)) = some (some d) ∧
    (romEntry (some d)).getLsbD 9 = true ∧ (romEntry (some d)).getLsbD 8 = d.alu.isNone ∧
    (romEntry (some d)).extractLsb' 3 5 = (d.alu.map AluKind.code).getD 0#5 ∧
    (romEntry (some d)).getLsbD 2 = d.uf ∧ (romEntry (some d)).getLsbD 1 = d.sx ∧
    (romEntry (some d)).getLsbD 0 = d.st) ∧
  romEntry none = 0#10 ∧ ∀ c, descriptorOfEntry c (romEntry none) = some none

/-- R146, R25, R280: no step and no reset writes the ROM or the configuration. -/
def Obligations.StepsKeepRomAndConfiguration : Prop :=
  (∀ s t : State, step s = .next t → t.rom = s.rom ∧ t.cfg = s.cfg) ∧
  (∀ s : State, s.hostReset.rom = s.rom ∧ s.hostReset.cfg = s.cfg)

/-! ### The plan -/

/-- R162: the first window begins at word 0, each next one where the one before ends, the last one ends
at word 8192 (with the strides of R60). -/
def Obligations.WindowsTileTheImage : Prop :=
  ∀ c : Cfg, c.stridesOk = true →
    (∀ slot, order 0 = some slot → base c slot = 0) ∧
    (∀ n slot slot', order n = some slot → order (n + 1) = some slot' →
      base c slot' = base c slot + window slot) ∧
    (∀ slot, order 881 = some slot → base c slot + window slot = imageWords) ∧
    (∀ n, (order n).isSome = true ↔ n < slotCount)

/-- R69: every word of the image lies in exactly one of the 882 windows. -/
def Obligations.EveryWordLiesInOneWindow : Prop :=
  ∀ (c : Cfg) (a : Nat), c.stridesOk = true → a < imageWords →
    ∃ n slot, order n = some slot ∧ base c slot ≤ a ∧ a < base c slot + window slot ∧
      ∀ n' slot', order n' = some slot' → base c slot' ≤ a → a < base c slot' + window slot' → n' = n

/-- From R59 to R62 and R162: the slot bases in words and bytes. That the strides of the memory tables are
256 and 8 words is a premise, the reading R60 makes of the source (D10, N8; log entry 14). -/
def Obligations.SlotBasesFollowTheMap : Prop :=
  ∀ (c : Cfg) (m : Fin 8) (k : Fin 32) (j : Fin 16), c.stridesOk = true →
    base c (.rr k) = 4 * k.val ∧ base c (.ri k) = 128 + 4 * k.val ∧
    byteOffset (base c (.rr k)) = 16 * k.val ∧ byteOffset (base c (.ri k)) = 512 + 16 * k.val ∧
    base c (.mi m k) = 1024 + 256 * m.val + 8 * k.val ∧
    base c (.rm m k) = 3072 + 256 * m.val + 8 * k.val ∧
    base c (.mr m k) = 5120 + 256 * m.val + 8 * k.val ∧
    byteOffset (base c (.mi m k)) = 4096 + 1024 * m.val + 32 * k.val ∧
    byteOffset (base c (.rm m k)) = 12288 + 1024 * m.val + 32 * k.val ∧
    byteOffset (base c (.mr m k)) = 20480 + 1024 * m.val + 32 * k.val ∧
    base c (.svc j) = 512 + 32 * j.val ∧ base c (.jc j) = 7168 + 32 * j.val ∧
    base c (.misc j) = 7680 + 32 * j.val ∧ base c .crr = 256 ∧ base c .crw = 384

/-- R58: every slot's bytes lie in the region that its name belongs to. -/
def Obligations.SlotsLieInTheirRegions : Prop :=
  ∀ (c : Cfg) (slot : SlotId), c.stridesOk = true →
    ∃ r, r ∈ regions ∧ r.name = regionOf slot ∧ r.firstByte ≤ byteOffset (base c slot) ∧
      byteOffset (base c slot + window slot) ≤ r.lastByte + 1

/-! ### One step -/

/-- A step runs the decoded instruction (R164): when the builder's program for the slot at SEQ is the
one micro-op `i`, a step is `exec i` with no words in flight, and then the end of the step (PLACE,
SEQ + 1, FINISH). A micro-op decoded from a word, put where the next step takes its program, is run so
(model's way of loading a program: log entry 15). -/
def Obligations.StepRunsTheDecodedInstruction : Prop :=
  (∀ (s : State) (slot : SlotId) (i : Instr), s.abort = false → s.done = false →
    order s.seq = some slot → programFor s slot = [i] →
    step s = match exec i s.startProgram with
      | .next t => if t.abort then .next t else completeSlot s slot t
      | .fault f => .fault f
      | .refused r => .refused r) ∧
  (∀ (s : State) (slot : SlotId) (nbits w : Nat) (i : Instr), order s.seq = some slot →
    decodeTableWord nbits w = some i → programFor (s.withFetchWord nbits w) slot = [i])

/-- R121: ENC.PROG gives the word of each element in order, or the failure of the first failing element
with its position; the empty program gives no words. -/
def Obligations.EncProgIsElementwise : Prop :=
  ∀ (layout : Vector Word 64) (p : List Instr),
    (∀ ws, encodeProgram layout p = .ok ws ↔ p.map (encode layout) = ws.map .ok) ∧
    (∀ e k, encodeProgram layout p = .error (e, k) ↔
      (p.map (encode layout))[k]? = some (.error e) ∧
        ∀ j, j < k → ∃ w, (p.map (encode layout))[j]? = some (.ok w)) ∧
    encodeProgram layout [] = .ok []

/-- R165: the program occupies the first words of its window, the rest is NOP; every byte outside the
window is unchanged; SEQ goes on by one; DONE is set by the last slot alone. -/
def Obligations.StepPlacesTheProgram : Prop :=
  ∀ (s : State) (slot : SlotId) (ws : List Word), s.Inv → s.abort = false → s.done = false →
    order s.seq = some slot → (programFor s slot).length ≤ window slot →
    encodeProgram s.cfg.jregBits (programFor s slot) = .ok ws →
    ∃ t, step s = .next t ∧ t.abort = false ∧ t.seq = s.seq + 1 ∧
      t.done = decide (s.seq + 1 = slotCount) ∧ t.ws = [] ∧ t.abortRec = s.abortRec ∧
      t.rom = s.rom ∧ t.cfg = s.cfg ∧
      (∀ i, i < window slot → t.img.getWord (base s.cfg slot + i) = some (windowWord ws i)) ∧
      (∀ b, ¬inWindow s.cfg slot b → t.img.get b = s.img.get b) ∧
      (∀ a, t.written a = (s.written a ||
        decide (base s.cfg slot ≤ a ∧ a < base s.cfg slot + window slot)))

/-- R144, R204, R253: where the builders keep to R204, a slot whose opcode is unassigned becomes all
NOP, without an abort. -/
def Obligations.UnassignedOpcodeGivesNops : Prop :=
  ∀ (s : State) (slot : SlotId) (k : Fin 32), s.Inv → s.abort = false → s.done = false →
    unassignedContract s.cfg → order s.seq = some slot → opcodeOfSlot slot = some k →
    dtLookup s k = none →
    ∃ t, step s = .next t ∧ t.abort = false ∧ t.seq = s.seq + 1 ∧
      (∀ i, i < window slot → t.img.getWord (base s.cfg slot + i) = some 0x00000003#32) ∧
      (∀ b, ¬inWindow s.cfg slot b → t.img.get b = s.img.get b)

/-- R167: when the builder returns no program, or one of length 0, the whole window becomes NOP, without an
abort and without a label. -/
def Obligations.EmptyResultGivesNops : Prop :=
  ∀ (s : State) (slot : SlotId), s.Inv → s.abort = false → s.done = false →
    order s.seq = some slot → programFor s slot = [] →
    stepLabel s = none ∧
    ∃ t, step s = .next t ∧ t.abort = false ∧ t.seq = s.seq + 1 ∧
      (∀ i, i < window slot → t.img.getWord (base s.cfg slot + i) = some 0x00000003#32) ∧
      (∀ b, ¬inWindow s.cfg slot b → t.img.get b = s.img.get b)

/-- From R61, R6: under a configuration of this hardware a slot number outside its set has no program and no
label, under either revision and for any table. -/
def Obligations.UnoccupiedSlotsHaveNoProgram : Prop :=
  ∀ (c : Cfg) (slot : SlotId) (rev : Rev) (dt : DescriptorTable), c.wf = true →
    c.occupied slot = false → build c slot rev dt = none

/-- R168: a program longer than its window aborts the pass with `LayoutMismatch`, the slot and the
length; nothing is truncated and nothing is written. -/
def Obligations.TooLongProgramAborts : Prop :=
  ∀ (s : State) (slot : SlotId), s.abort = false → s.done = false → order s.seq = some slot →
    window slot < (programFor s slot).length →
    ∃ t, step s = .next t ∧
      abortedFrom s t .layoutMismatch .length (programFor s slot).length ∧ t.abortRec.slot = slot

/-- R251 (and R258 within one slot): the first micro-op whose immediate is out of range aborts the pass
with `EncodingRange`, its slot, its position, its field and its value; nothing is written. -/
def Obligations.FirstBadImmediateAborts : Prop :=
  ∀ (s : State) (slot : SlotId) (before after : List Instr) (i : Instr) (e : RangeFailure),
    s.abort = false → s.done = false → order s.seq = some slot →
    programFor s slot = before ++ i :: after → (programFor s slot).length ≤ window slot →
    programWf before = true → encode s.cfg.jregBits i = .error e →
    ∃ t, step s = .next t ∧ abortedFrom s t .encodingRange e.field e.value ∧
      t.abortRec.slot = slot ∧ t.abortRec.opIndex = before.length

/-- From R53, R252: a step whose window holds a written word aborts with `LayoutMismatch` and the first such
word; the words below it that the step has placed are undone with the rest of the step (log entry 10). -/
def Obligations.OverlapAbortsTheStep : Prop :=
  ∀ (s : State) (slot : SlotId) (ws : List Word) (a : Nat), s.cfg.stridesOk = true →
    s.abort = false → s.done = false → order s.seq = some slot →
    (programFor s slot).length ≤ window slot →
    encodeProgram s.cfg.jregBits (programFor s slot) = .ok ws →
    base s.cfg slot ≤ a → a < base s.cfg slot + window slot → s.written a = true →
    (∀ b, base s.cfg slot ≤ b → b < a → s.written b = false) →
    ∃ t, step s = .next t ∧ abortedFrom s t .layoutMismatch .overlap a ∧ t.abortRec.slot = slot

/-- From R171: when the last slot is placed, the pass ends in DONE if every word is written, and otherwise
aborts with `LayoutMismatch` on a word that is not written (which one, when several are, is open: log
entry 9). The abort keeps SEQ at 881 and undoes the window just placed (log entry 10). -/
def Obligations.FinishChecksEveryWord : Prop :=
  ∀ (s : State) (slot : SlotId) (ws : List Word), s.cfg.stridesOk = true →
    s.abort = false → s.done = false → order s.seq = some slot → s.seq + 1 = slotCount →
    (programFor s slot).length ≤ window slot →
    encodeProgram s.cfg.jregBits (programFor s slot) = .ok ws →
    (∀ b, base s.cfg slot ≤ b → b < imageWords → s.written b = false) →
    ∃ t, step s = .next t ∧
      ((∀ a, a < base s.cfg slot → s.written a = true) →
        t.done = true ∧ t.abort = false ∧ t.seq = slotCount) ∧
      ((∃ a, a < base s.cfg slot ∧ s.written a = false) →
        ∃ v : Nat, v < base s.cfg slot ∧ s.written v = false ∧
          abortedFrom s t .layoutMismatch .overlap v)

/-- From R255: an abort changes ABORT and ABORT_REC and leaves SEQ, IMG, WR and DONE as before the step; the
record names the slot at SEQ, except for a raise in FINISH, and the micro-op, its field and its value, or
the length, that failed; after it no step and no EMIT is enabled. That
IMG and WR are as before although PLACE has already written words, and SEQ as before although FINISH is
reached at 882, is log entry 10. -/
def Obligations.AbortIsPrecise : Prop :=
  ∀ s t : State, step s = .next t → t.abort = true →
    sameButEncoding s t ∧ s.abort = false ∧ t.ws = [] ∧
    (order s.seq = some t.abortRec.slot ∨
      s.seq + 1 = slotCount ∧ t.abortRec.cause = .layoutMismatch ∧ t.abortRec.field = .overlap) ∧
    (∀ slot, order s.seq = some slot →
      (t.abortRec.cause = .encodingRange → ∃ i, (programFor s slot)[t.abortRec.opIndex]? = some i ∧
        encode s.cfg.jregBits i = .error ⟨t.abortRec.field, t.abortRec.value⟩) ∧
      (t.abortRec.field = .length → t.abortRec.value = (programFor s slot).length)) ∧
    (∀ u, step t ≠ .next u) ∧ (∀ bytes, emit t ≠ .next bytes)

/-- R164: a step is enabled exactly when ABORT = 0, DONE = 0 and SEQ < 882: then it answers a next state
(with the strides of R60), and otherwise it is a fault (model's choice of a fault: log entry 6). -/
def Obligations.StepIsEnabledExactlyWhen : Prop :=
  (∀ s : State, s.cfg.stridesOk = true → ((∃ t, step s = .next t) ↔ s.enabled = true)) ∧
  (∀ s : State, s.enabled = false → ∃ f, step s = .fault f)

/-- R23: SEQ is 0 at reset, goes up by one at each completed step, stays at the slot that failed on an
abort, and at 882 no step is enabled. -/
def Obligations.SeqCountsCompletedSteps : Prop :=
  State.reset.seq = 0 ∧
  (∀ s t : State, step s = .next t →
    t.seq = (if t.abort then s.seq else s.seq + 1) ∧ s.seq < slotCount ∧ t.seq ≤ slotCount) ∧
  (∀ s t : State, s.seq = slotCount → step s ≠ .next t)

/-- R22: the status flags are both 0 at reset and never both 1, DONE means that the pass is over and
every word is written, and no step leaves a state with one of them set; only reset clears them. -/
def Obligations.StatusFlagsAreSticky : Prop :=
  (State.reset.done = false ∧ State.reset.abort = false) ∧
  (∀ s t : State, step s = .next t → ¬(t.done = true ∧ t.abort = true) ∧
    (t.done = true → t.seq = slotCount ∧ ∀ a, a < imageWords → t.written a = true)) ∧
  (∀ s t : State, s.done = true ∨ s.abort = true → step s ≠ .next t) ∧
  (∀ s : State, s.hostReset.done = false ∧ s.hostReset.abort = false)

/-- R172: the revision is read at the first step of a pass and the sample is used after it: later steps
do the same whatever REV is. -/
def Obligations.RevisionIsSampledOnce : Prop :=
  (∀ s t : State, step s = .next t → t.abort = false →
    t.revSample = (if s.seq = 0 then s.cfg.rev else s.revSample)) ∧
  (∀ (s t : State) (r : Rev), s.seq ≠ 0 → step s = .next t →
    step { s with cfg := { s.cfg with rev := r } } = .next { t with cfg := { t.cfg with rev := r } })

/-- R228: under an allowed configuration only the jump/call and control-register builders read the
revision. -/
def Obligations.OtherBuildersIgnoreTheRevision : Prop :=
  ∀ (c : Cfg) (slot : SlotId) (dt : DescriptorTable), c.buildOk = true → slot.mayReadRev = false →
    build c slot .narrow dt = build c slot .wide dt

/-- From R164, R203, R264: an enabled step passes to the host's log the label of a builder's answer that is
not empty, with its slot, and nothing otherwise; and labels go nowhere else: with every label changed, the
pass ends in the same image or record, and the log is the old one with its labels so changed. (That a step
that aborts passes its label too is the model's choice: log entry 23.) -/
def Obligations.LabelsGoToTheLogAlone : Prop :=
  (∀ (s : State) (slot : SlotId) (r : BuildResult), s.enabled = true → order s.seq = some slot →
    build s.cfg slot (revOf s) s.rom = some r → r.program ≠ [] →
    stepLabel s = some (slot, r.label)) ∧
  (∀ (s : State) (slot : SlotId), order s.seq = some slot → programFor s slot = [] →
    stepLabel s = none) ∧
  (∀ s : State, s.enabled = false → stepLabel s = none) ∧
  (∀ (c : Cfg) (f : SlotId → String → String), assemble (relabel f c) = assemble c ∧
    runLog slotCount (State.resetWith (relabel f c)) =
      (runLog slotCount (State.resetWith c)).map fun e => (e.1, f e.1 e.2))

/-! ### Invariants -/

/-- Every step keeps the invariant of the pass (R20 to R23, R35, R69, R146), from every state that
meets it. -/
def Obligations.EveryStepKeepsTheInvariant : Prop :=
  ∀ s t : State, s.Inv → step s = .next t → t.Inv

/-- The state after reset meets the invariant, under every configuration of this hardware (R26). -/
def Obligations.ResetMeetsTheInvariant : Prop :=
  State.reset.Inv ∧ ∀ c : Cfg, c.wf = true → (State.resetWith c).Inv

/-- The image keeps its canonical form in every step from every state that has it. -/
def Obligations.StepsKeepTheImageCanonical : Prop :=
  ∀ s t : State, s.img.wf = true → step s = .next t → t.img.wf = true

/-- R26: the reset values of the table: no byte of IMG has a value, WR, DONE, ABORT and SEQ are 0; the
ROM holds `CFG.dt_init`, and a reset leaves it and `CFG.rev` as they are; the revision of the pass that
begins is the host's. `ABORT_REC` is unspecified: nothing is said of it. -/
def Obligations.ResetValues : Prop :=
  (∀ b, State.reset.img.get b = none) ∧ (∀ a, State.reset.written a = false) ∧
  State.reset.done = false ∧ State.reset.abort = false ∧ State.reset.seq = 0 ∧
  State.reset.rom = State.reset.cfg.dtInit ∧
  ∀ s : State, s.hostReset.rom = s.rom ∧ s.hostReset.cfg.rev = s.cfg.rev ∧
    revOf s.hostReset = s.cfg.rev

/-- R280: the block's reset, from any state: the values of R26, with the ROM and CFG as they were; the
pass begins at RR(0). -/
def Obligations.HostResetDiscardsThePass : Prop :=
  ∀ s : State, (∀ b, s.hostReset.img.get b = none) ∧ (∀ a, s.hostReset.written a = false) ∧
    s.hostReset.done = false ∧ s.hostReset.abort = false ∧ s.hostReset.seq = 0 ∧
    s.hostReset.rom = s.rom ∧ s.hostReset.cfg = s.cfg ∧ order s.hostReset.seq = some (.rr 0)

/-! ### The image -/

/-- R53: a first write of a word stores it, marks it and leaves every other byte and flag; a second
write of the word is a `LayoutMismatch` on that address. -/
def Obligations.WordsAreWrittenOnce : Prop :=
  ∀ (s : State) (a : Nat) (w : Word), a < imageWords →
    (s.written a = true → wordWrite a w s = .error (.overlap a)) ∧
    (s.written a = false → ∃ t, wordWrite a w s = .ok t ∧ t.img.getWord a = some w ∧
      (∀ b, t.written b = (s.written b || decide (b = a))) ∧
      (∀ b, b / 4 ≠ a → t.img.get b = s.img.get b) ∧
      ∀ w', wordWrite a w' t = .error (.overlap a))

/-- R52: a word is stored little-endian, and after DONE a byte read sees its byte and a word read the
word. -/
def Obligations.TheImageIsLittleEndian : Prop :=
  (∀ (m : Memory) (a i : Nat) (w : Word), i < 4 →
    (m.setWord a w).get (4 * a + i) = some (BitVec.ofNat 8 (w.toNat / 256 ^ i))) ∧
  (∀ (s : State) (a i : Nat) (w : Word), i < 4 → a < imageWords → s.done = true → s.abort = false →
    s.img.getWord a = some w →
    memRead s (4 * a + i) .byte = .next (w.toNat / 256 ^ i % 256) ∧
    memRead s (4 * a) .word = .next w.toNat)

/-- R54, R290: before DONE and after ABORT no byte of the image is readable. -/
def Obligations.NoReadBeforeDone : Prop :=
  ∀ (s : State) (b : Nat) (n : AccessSize), s.done = false ∨ s.abort = true →
    memRead s b n = .refused .imageNotReadable ∧ emit s = .refused .imageNotReadable

/-- R54: after DONE a read of 1, 2 or 4 bytes at any offset, also across words, answers the little-endian
integer of the bytes of the image; in a state of a pass every such read inside the image is answered; and
before DONE and after ABORT no read is. -/
def Obligations.MemReadIsLittleEndian : Prop :=
  (∀ (s : State) (b : Nat) (n : AccessSize) (bytes : List Byte), s.done = true → s.abort = false →
    b + n.bytes ≤ imageBytes → bytes.length = n.bytes →
    (∀ i, i < n.bytes → s.img.get (b + i) = bytes[i]?) →
    memRead s b n = .next (littleEndian bytes)) ∧
  (∀ bytes : List Byte, littleEndian bytes = ∑ i : Fin bytes.length, bytes[i].toNat * 256 ^ i.val) ∧
  (∀ (s : State) (b : Nat) (n : AccessSize), s.Inv → s.done = true → b + n.bytes ≤ imageBytes →
    ∃ v, memRead s b n = .next v ∧ v < 256 ^ n.bytes) ∧
  (∀ (s : State) (b : Nat) (n : AccessSize), s.done = false ∨ s.abort = true →
    ∀ v, memRead s b n ≠ .next v)

/-- R175, R177: after DONE, EMIT gives exactly 32 768 bytes, each the byte of the image. -/
def Obligations.EmitGivesTheWholeImage : Prop :=
  ∀ s : State, s.Inv → s.done = true →
    ∃ bytes, emit s = .next bytes ∧ bytes.length = 32768 ∧
      ∀ b, b < 32768 → bytes[b]? = s.img.get b

/-- R283: a new configuration is taken between passes, with its ROM, and refused in the middle of one. -/
def Obligations.ConfigurationOnlyBetweenPasses : Prop :=
  ∀ (s : State) (c : Cfg),
    (s.seq = 0 ∨ s.done = true ∨ s.abort = true →
      ∃ t, configure c s = .next t ∧ t.cfg = c ∧ ∀ k, dtLookup t k = c.dtInit[k]) ∧
    (s.seq ≠ 0 ∧ s.done = false ∧ s.abort = false →
      configure c s = .refused .configurationInPass)

/-! ### The pass -/

/-- R170: under every configuration of this hardware, whatever its builders answer, the pass ends within
882 steps, in an image of 32 768 bytes or in an abort record. -/
def Obligations.EveryPassEnds : Prop :=
  ∀ c : Cfg, c.wf = true →
    (∃ t, asmRun slotCount (State.resetWith c) = .next t ∧ (t.done = true ∨ t.abort = true)) ∧
    ((∃ bytes, assemble c = .next (.image bytes) ∧ bytes.length = 32768) ∨
      ∃ r, assemble c = .next (.abort r))

/-- R174: when every program fits its window and every immediate its field, the image is the
concatenation, in the order of R161, of the 882 windows: each the words of its program and NOP after
them, little-endian. -/
def Obligations.ImageIsTheConcatenationOfTheWindows : Prop :=
  ∀ (c : Cfg) (wordsOf : SlotId → List Word), c.wf = true → lengthContract c →
    (∀ slot, encodeProgram c.jregBits (programOf (build c slot c.rev c.dtInit)) = .ok (wordsOf slot)) →
    assemble c = .next (.image ((List.range slotCount).flatMap fun n =>
      match order n with
      | some slot => (windowWords (window slot) (wordsOf slot)).flatMap wordBytes
      | none => []))

/-- R176, R228 and section 3.7 of `spec/95_test_vectors.md`: when no builder reads the revision, so that
every row answers the same under both, the outcome of the pass is the same under both. -/
def Obligations.OutcomeIgnoresAnUnreadRevision : Prop :=
  ∀ (c : Cfg) (r : Rev), (∀ e, e ∈ c.build → answerFor e.answer .narrow = answerFor e.answer .wide) →
    assemble { c with rev := r } = assemble c
end

