-- ==== Sys2Proof/Laws/Memory.lean ====
section
/-! SUPPORT. The laws of the image bytes: a read after a write, and the canonical form. -/

namespace Sys2Proof.Machine

@[simp] theorem Memory.get_nil (b : Nat) : Memory.get [] b = none := rfl

theorem Memory.get_set (m : Memory) (b : Nat) (v : Byte) (a : Nat) :
    (m.set b v).get a = if a = b then some v else m.get a := by
  induction m with
  | nil => simp only [Memory.set, Memory.get]; grind
  | cons c m ih => simp only [Memory.set]; grind [Memory.get]

/-- The offsets listed after a write. -/
theorem Memory.mem_set {m : Memory} {b : Nat} {v : Byte} {c : Host.Cell} (h : c ∈ m.set b v) :
    c = (b, v) ∨ c ∈ m := by
  induction m with
  | nil => simpa [Memory.set] using h
  | cons d m ih =>
    simp only [Memory.set] at h
    split at h
    · simpa using h
    · split at h
      · simp only [List.mem_cons] at h ⊢; tauto
      · simp only [List.mem_cons] at h ⊢
        rcases h with h | h
        · exact .inr (.inl h)
        · rcases ih h with h | h <;> tauto

/-- A write keeps the canonical form. -/
theorem Memory.set_wf {m : Memory} (h : m.wf = true) (b : Nat) (v : Byte) : (m.set b v).wf = true := by
  simp only [Memory.wf, decide_eq_true_eq] at h ⊢
  induction m with
  | nil => simp [Memory.set]
  | cons c m ih =>
    simp only [Memory.set]
    rw [List.pairwise_cons] at h
    split
    · rename_i hlt
      refine List.pairwise_cons.2 ⟨?_, List.pairwise_cons.2 h⟩
      intro d hd
      rcases List.mem_cons.1 hd with rfl | hd
      · exact hlt
      · exact lt_trans hlt (h.1 d hd)
    · split
      · rename_i _ heq
        exact List.pairwise_cons.2 ⟨fun d hd => heq ▸ h.1 d hd, h.2⟩
      · rename_i hge hne
        refine List.pairwise_cons.2 ⟨?_, ih h.2⟩
        intro d hd
        rcases Memory.mem_set hd with rfl | hd
        · show c.1 < b
          omega
        · exact h.1 d hd

/-- A word write keeps the canonical form. -/
theorem Memory.setWord_wf {m : Memory} (h : m.wf = true) (a : Nat) (w : Word) :
    (m.setWord a w).wf = true :=
  Memory.set_wf (Memory.set_wf (Memory.set_wf (Memory.set_wf h _ _) _ _) _ _) _ _

/-- A byte after a word write: a byte of the word, or what it was (R52). -/
theorem Memory.get_setWord (m : Memory) (a : Nat) (w : Word) (b : Nat) :
    (m.setWord a w).get b = if b / 4 = a then some (wordByte w (b % 4)) else m.get b := by
  simp only [Memory.setWord, Memory.get_set]
  by_cases h : b / 4 = a
  · have hb : b = 4 * a + b % 4 := by omega
    rcases (by omega : b % 4 = 0 ∨ b % 4 = 1 ∨ b % 4 = 2 ∨ b % 4 = 3) with h4 | h4 | h4 | h4 <;>
      rw [h4] at hb ⊢ <;> subst hb <;> simp <;> intros <;> omega
  · rw [if_neg h, if_neg (by omega), if_neg (by omega), if_neg (by omega), if_neg (by omega)]

theorem Memory.get_setWord_of_ne {m : Memory} {a : Nat} {w : Word} {b : Nat} (h : b / 4 ≠ a) :
    (m.setWord a w).get b = m.get b := by
  rw [Memory.get_setWord, if_neg h]

/-- The bytes of a word make the word (R52). -/
theorem wordOfBytes_wordByte (w : Word) :
    wordOfBytes (wordByte w 0) (wordByte w 1) (wordByte w 2) (wordByte w 3) = w := by
  refine BitVec.eq_of_getLsbD_eq fun i hi => ?_
  have h : ∀ b0 b1 b2 b3 : Byte, (wordOfBytes b0 b1 b2 b3).getLsbD i =
      if i < 8 then b0.getLsbD i else if i - 8 < 8 then b1.getLsbD (i - 8)
      else if i - 8 - 8 < 8 then b2.getLsbD (i - 8 - 8) else b3.getLsbD (i - 8 - 8 - 8) := by
    intro b0 b1 b2 b3
    show (b3 ++ b2 ++ b1 ++ b0).getLsbD i = _
    simp only [BitVec.getLsbD_append]
  rw [h]
  simp only [wordByte, BitVec.getLsbD_extractLsb']
  repeat' split
  all_goals
    rw [decide_eq_true (by omega), Bool.true_and]
    congr 1
    omega

/-- A word read after a word write. -/
theorem Memory.getWord_setWord_same (m : Memory) (a : Nat) (w : Word) :
    (m.setWord a w).getWord a = some w := by
  have h0 : 4 * a / 4 = a := by omega
  have h1 : (4 * a + 1) / 4 = a := by omega
  have h2 : (4 * a + 2) / 4 = a := by omega
  have h3 : (4 * a + 3) / 4 = a := by omega
  have m0 : 4 * a % 4 = 0 := by omega
  have m1 : (4 * a + 1) % 4 = 1 := by omega
  have m2 : (4 * a + 2) % 4 = 2 := by omega
  have m3 : (4 * a + 3) % 4 = 3 := by omega
  simp only [Memory.getWord, Memory.get_setWord, h0, h1, h2, h3, m0, m1, m2, m3, if_true]
  exact congrArg some (wordOfBytes_wordByte w)

/-- A word write leaves every other word. -/
theorem Memory.getWord_setWord_of_ne {m : Memory} {a a' : Nat} {w : Word} (h : a' ≠ a) :
    (m.setWord a w).getWord a' = m.getWord a' := by
  have e0 := Memory.get_setWord_of_ne (m := m) (w := w) (b := 4 * a') (a := a) (by omega)
  have e1 := Memory.get_setWord_of_ne (m := m) (w := w) (b := 4 * a' + 1) (a := a) (by omega)
  have e2 := Memory.get_setWord_of_ne (m := m) (w := w) (b := 4 * a' + 2) (a := a) (by omega)
  have e3 := Memory.get_setWord_of_ne (m := m) (w := w) (b := 4 * a' + 3) (a := a) (by omega)
  simp only [Memory.getWord, e0, e1, e2, e3]

end Sys2Proof.Machine
end

