-- ==== Sys2Proof/Laws/State.lean ====
section
/-! SUPPORT. One lemma per field per state update, so that no later proof unfolds a record update. -/

namespace Sys2Proof.Machine

/-! ### `State.putWord` -/

@[simp] theorem State.putWord_img (a : Nat) (w : Word) (s : State) :
    (s.putWord a w).img = s.img.setWord a w := rfl
@[simp] theorem State.putWord_wr (a : Nat) (w : Word) (s : State) :
    (s.putWord a w).wr = setWritten s.wr a := rfl
@[simp] theorem State.putWord_done (a : Nat) (w : Word) (s : State) :
    (s.putWord a w).done = s.done := rfl
@[simp] theorem State.putWord_abort (a : Nat) (w : Word) (s : State) :
    (s.putWord a w).abort = s.abort := rfl
@[simp] theorem State.putWord_seq (a : Nat) (w : Word) (s : State) :
    (s.putWord a w).seq = s.seq := rfl
@[simp] theorem State.putWord_abortRec (a : Nat) (w : Word) (s : State) :
    (s.putWord a w).abortRec = s.abortRec := rfl
@[simp] theorem State.putWord_rom (a : Nat) (w : Word) (s : State) :
    (s.putWord a w).rom = s.rom := rfl
@[simp] theorem State.putWord_revSample (a : Nat) (w : Word) (s : State) :
    (s.putWord a w).revSample = s.revSample := rfl
@[simp] theorem State.putWord_ws (a : Nat) (w : Word) (s : State) : (s.putWord a w).ws = s.ws := rfl
@[simp] theorem State.putWord_cfg (a : Nat) (w : Word) (s : State) :
    (s.putWord a w).cfg = s.cfg := rfl
@[simp] theorem State.putWord_free (a : Nat) (w : Word) (s : State) :
    (s.putWord a w).free = s.free := rfl

/-! ### `State.pushWord` -/

@[simp] theorem State.pushWord_img (w : Word) (s : State) : (s.pushWord w).img = s.img := rfl
@[simp] theorem State.pushWord_wr (w : Word) (s : State) : (s.pushWord w).wr = s.wr := rfl
@[simp] theorem State.pushWord_done (w : Word) (s : State) : (s.pushWord w).done = s.done := rfl
@[simp] theorem State.pushWord_abort (w : Word) (s : State) : (s.pushWord w).abort = s.abort := rfl
@[simp] theorem State.pushWord_seq (w : Word) (s : State) : (s.pushWord w).seq = s.seq := rfl
@[simp] theorem State.pushWord_abortRec (w : Word) (s : State) :
    (s.pushWord w).abortRec = s.abortRec := rfl
@[simp] theorem State.pushWord_rom (w : Word) (s : State) : (s.pushWord w).rom = s.rom := rfl
@[simp] theorem State.pushWord_revSample (w : Word) (s : State) :
    (s.pushWord w).revSample = s.revSample := rfl
@[simp] theorem State.pushWord_ws (w : Word) (s : State) : (s.pushWord w).ws = s.ws ++ [w] := rfl
@[simp] theorem State.pushWord_cfg (w : Word) (s : State) : (s.pushWord w).cfg = s.cfg := rfl
@[simp] theorem State.pushWord_free (w : Word) (s : State) : (s.pushWord w).free = s.free := rfl

/-! ### `State.raise` -/

@[simp] theorem State.raise_img (c : AbortCause) (k : Option SlotId) (o : Option Nat) (f : AbortField) (v : Int) (s : State) :
    (s.raise c k o f v).img = s.img := rfl
@[simp] theorem State.raise_wr (c : AbortCause) (k : Option SlotId) (o : Option Nat) (f : AbortField) (v : Int) (s : State) :
    (s.raise c k o f v).wr = s.wr := rfl
@[simp] theorem State.raise_done (c : AbortCause) (k : Option SlotId) (o : Option Nat) (f : AbortField) (v : Int) (s : State) :
    (s.raise c k o f v).done = s.done := rfl
@[simp] theorem State.raise_abort (c : AbortCause) (k : Option SlotId) (o : Option Nat) (f : AbortField) (v : Int) (s : State) :
    (s.raise c k o f v).abort = true := rfl
@[simp] theorem State.raise_seq (c : AbortCause) (k : Option SlotId) (o : Option Nat) (f : AbortField) (v : Int) (s : State) :
    (s.raise c k o f v).seq = s.seq := rfl
@[simp] theorem State.raise_abortRec (c : AbortCause) (k : Option SlotId) (o : Option Nat) (f : AbortField) (v : Int) (s : State) :
    (s.raise c k o f v).abortRec = ⟨c, k.getD (Config.freeSlot s.free), o.getD (Config.freeOpIndex s.free), f, v⟩ := rfl
@[simp] theorem State.raise_rom (c : AbortCause) (k : Option SlotId) (o : Option Nat) (f : AbortField) (v : Int) (s : State) :
    (s.raise c k o f v).rom = s.rom := rfl
@[simp] theorem State.raise_revSample (c : AbortCause) (k : Option SlotId) (o : Option Nat) (f : AbortField) (v : Int) (s : State) :
    (s.raise c k o f v).revSample = s.revSample := rfl
@[simp] theorem State.raise_ws (c : AbortCause) (k : Option SlotId) (o : Option Nat) (f : AbortField) (v : Int) (s : State) :
    (s.raise c k o f v).ws = [] := rfl
@[simp] theorem State.raise_cfg (c : AbortCause) (k : Option SlotId) (o : Option Nat) (f : AbortField) (v : Int) (s : State) :
    (s.raise c k o f v).cfg = s.cfg := rfl
@[simp] theorem State.raise_free (c : AbortCause) (k : Option SlotId) (o : Option Nat) (f : AbortField) (v : Int) (s : State) :
    (s.raise c k o f v).free = s.free + 1 := rfl

/-! ### `State.setDone` -/

@[simp] theorem State.setDone_img (s : State) : (s.setDone).img = s.img := rfl
@[simp] theorem State.setDone_wr (s : State) : (s.setDone).wr = s.wr := rfl
@[simp] theorem State.setDone_done (s : State) : (s.setDone).done = true := rfl
@[simp] theorem State.setDone_abort (s : State) : (s.setDone).abort = s.abort := rfl
@[simp] theorem State.setDone_seq (s : State) : (s.setDone).seq = s.seq := rfl
@[simp] theorem State.setDone_abortRec (s : State) : (s.setDone).abortRec = s.abortRec := rfl
@[simp] theorem State.setDone_rom (s : State) : (s.setDone).rom = s.rom := rfl
@[simp] theorem State.setDone_revSample (s : State) : (s.setDone).revSample = s.revSample := rfl
@[simp] theorem State.setDone_ws (s : State) : (s.setDone).ws = s.ws := rfl
@[simp] theorem State.setDone_cfg (s : State) : (s.setDone).cfg = s.cfg := rfl
@[simp] theorem State.setDone_free (s : State) : (s.setDone).free = s.free := rfl

/-! ### `State.advance` -/

@[simp] theorem State.advance_img (s : State) : (s.advance).img = s.img := rfl
@[simp] theorem State.advance_wr (s : State) : (s.advance).wr = s.wr := rfl
@[simp] theorem State.advance_done (s : State) : (s.advance).done = s.done := rfl
@[simp] theorem State.advance_abort (s : State) : (s.advance).abort = s.abort := rfl
@[simp] theorem State.advance_seq (s : State) : (s.advance).seq = s.seq + 1 := rfl
@[simp] theorem State.advance_abortRec (s : State) : (s.advance).abortRec = s.abortRec := rfl
@[simp] theorem State.advance_rom (s : State) : (s.advance).rom = s.rom := rfl
@[simp] theorem State.advance_revSample (s : State) : (s.advance).revSample = revOf s := rfl
@[simp] theorem State.advance_ws (s : State) : (s.advance).ws = [] := rfl
@[simp] theorem State.advance_cfg (s : State) : (s.advance).cfg = s.cfg := rfl
@[simp] theorem State.advance_free (s : State) : (s.advance).free = s.free := rfl

/-! ### `State.startProgram` -/

@[simp] theorem State.startProgram_img (s : State) : (s.startProgram).img = s.img := rfl
@[simp] theorem State.startProgram_wr (s : State) : (s.startProgram).wr = s.wr := rfl
@[simp] theorem State.startProgram_done (s : State) : (s.startProgram).done = s.done := rfl
@[simp] theorem State.startProgram_abort (s : State) : (s.startProgram).abort = s.abort := rfl
@[simp] theorem State.startProgram_seq (s : State) : (s.startProgram).seq = s.seq := rfl
@[simp] theorem State.startProgram_abortRec (s : State) :
    (s.startProgram).abortRec = s.abortRec := rfl
@[simp] theorem State.startProgram_rom (s : State) : (s.startProgram).rom = s.rom := rfl
@[simp] theorem State.startProgram_revSample (s : State) :
    (s.startProgram).revSample = s.revSample := rfl
@[simp] theorem State.startProgram_ws (s : State) : (s.startProgram).ws = [] := rfl
@[simp] theorem State.startProgram_cfg (s : State) : (s.startProgram).cfg = s.cfg := rfl
@[simp] theorem State.startProgram_free (s : State) : (s.startProgram).free = s.free := rfl

/-! ### `State.hostReset` -/

@[simp] theorem State.hostReset_img (s : State) : (s.hostReset).img = [] := rfl
@[simp] theorem State.hostReset_wr (s : State) : (s.hostReset).wr = 0#8192 := rfl
@[simp] theorem State.hostReset_done (s : State) : (s.hostReset).done = false := rfl
@[simp] theorem State.hostReset_abort (s : State) : (s.hostReset).abort = false := rfl
@[simp] theorem State.hostReset_seq (s : State) : (s.hostReset).seq = 0 := rfl
@[simp] theorem State.hostReset_abortRec (s : State) :
    (s.hostReset).abortRec = Config.freeAbortRec s.free := rfl
@[simp] theorem State.hostReset_rom (s : State) : (s.hostReset).rom = s.rom := rfl
@[simp] theorem State.hostReset_revSample (s : State) : (s.hostReset).revSample = s.cfg.rev := rfl
@[simp] theorem State.hostReset_ws (s : State) : (s.hostReset).ws = [] := rfl
@[simp] theorem State.hostReset_cfg (s : State) : (s.hostReset).cfg = s.cfg := rfl
@[simp] theorem State.hostReset_free (s : State) : (s.hostReset).free = s.free + 1 := rfl

/-! ### `State.withWords` -/

@[simp] theorem State.withWords_img (ws : List Word) (s : State) :
    (s.withWords ws).img = s.img := rfl
@[simp] theorem State.withWords_wr (ws : List Word) (s : State) :
    (s.withWords ws).wr = s.wr := rfl
@[simp] theorem State.withWords_done (ws : List Word) (s : State) :
    (s.withWords ws).done = s.done := rfl
@[simp] theorem State.withWords_abort (ws : List Word) (s : State) :
    (s.withWords ws).abort = s.abort := rfl
@[simp] theorem State.withWords_seq (ws : List Word) (s : State) :
    (s.withWords ws).seq = s.seq := rfl
@[simp] theorem State.withWords_abortRec (ws : List Word) (s : State) :
    (s.withWords ws).abortRec = s.abortRec := rfl
@[simp] theorem State.withWords_rom (ws : List Word) (s : State) :
    (s.withWords ws).rom = s.rom := rfl
@[simp] theorem State.withWords_revSample (ws : List Word) (s : State) :
    (s.withWords ws).revSample = s.revSample := rfl
@[simp] theorem State.withWords_ws (ws : List Word) (s : State) :
    (s.withWords ws).ws = ws := rfl
@[simp] theorem State.withWords_cfg (ws : List Word) (s : State) :
    (s.withWords ws).cfg = s.cfg := rfl
@[simp] theorem State.withWords_free (ws : List Word) (s : State) :
    (s.withWords ws).free = s.free := rfl

end Sys2Proof.Machine
end

