-- ==== Sys2Proof/Laws/Ops.lean ====
section
/-! SUPPORT. What each shared operation can do, said once. -/

namespace Sys2Proof.Machine

/-! ### Written flags -/

theorem getLsbD_setWritten {wr : BitVec 8192} {a : Nat} (h : a < 8192) (b : Nat) :
    (setWritten wr a).getLsbD b = (wr.getLsbD b || decide (b = a)) := by
  simp only [setWritten, BitVec.getLsbD_or, BitVec.getLsbD_twoPow, h, decide_true, Bool.true_and]
  simp only [eq_comm]

theorem written_putWord {a : Nat} (h : a < imageWords) (w : Word) (s : State) (b : Nat) :
    (s.putWord a w).written b = (s.written b || decide (b = a)) :=
  getLsbD_setWritten h b

theorem written_lt {s : State} {a : Nat} (h : s.written a = true) : a < imageWords := by
  by_contra hge
  simp only [State.written] at h
  rw [BitVec.getLsbD_of_ge _ _ (by simpa [imageWords] using hge)] at h
  cases h

theorem allWritten_iff (wr : BitVec 8192) :
    allWritten wr = true ↔ ∀ a, a < imageWords → wr.getLsbD a = true := by
  simp only [allWritten, beq_iff_eq, imageWords]
  constructor
  · rintro rfl a ha
    rw [BitVec.getLsbD_allOnes, decide_eq_true ha]
  · intro h
    refine BitVec.eq_of_getLsbD_eq fun i hi => ?_
    rw [h i hi, BitVec.getLsbD_allOnes, decide_eq_true hi]

/-! ### WordWrite (R53) -/

theorem wordWrite_ok_iff {a : Nat} {w : Word} {s t : State} :
    wordWrite a w s = .ok t ↔ a < imageWords ∧ s.written a = false ∧ t = s.putWord a w := by
  simp only [wordWrite]
  split
  · exact ⟨fun h => (by cases h), fun h => by omega⟩
  · split
    · rename_i h2
      exact ⟨fun h => (by cases h), fun h => by rw [h2] at h; cases h.2.1⟩
    · rename_i h1 h2
      exact ⟨fun h => ⟨by omega, by simpa using h2, by cases h; rfl⟩, fun h => by rw [h.2.2]⟩

theorem wordWrite_error_iff {a : Nat} {w : Word} {s : State} {e : WriteError} :
    wordWrite a w s = .error e ↔
      (imageWords ≤ a ∧ e = .outside a) ∨ (a < imageWords ∧ s.written a = true ∧ e = .overlap a) := by
  simp only [wordWrite]
  split
  · simp only [Except.error.injEq, eq_comm (a := WriteError.outside a)]; constructor
    · intro h; exact .inl ⟨by assumption, h⟩
    · rintro (h | h)
      · exact h.2
      · omega
  · split
    · simp only [Except.error.injEq, eq_comm (a := WriteError.overlap a)]; constructor
      · intro h; exact .inr ⟨by omega, by assumption, h⟩
      · rintro (h | h)
        · omega
        · exact h.2.2
    · simp_all

/-- What a run of word writes does: word `a + i` is `ws[i]`, nothing else changes. -/
structure Wrote (a : Nat) (ws : List Word) (s t : State) : Prop where
  written : ∀ b, t.written b = (s.written b || decide (a ≤ b ∧ b < a + ws.length))
  get : ∀ b, t.img.get b =
    if a ≤ b / 4 ∧ b / 4 < a + ws.length then (ws[b / 4 - a]?).map (fun w => wordByte w (b % 4))
    else s.img.get b
  wf : s.img.wf = true → t.img.wf = true
  rest : t = { s with img := t.img, wr := t.wr }

theorem writeWords_wrote {a : Nat} {ws : List Word} {s t : State} (h : writeWords a ws s = .ok t) :
    Wrote a ws s t := by
  induction ws generalizing a s with
  | nil =>
    cases h
    exact ⟨by simp, by intro b; rw [if_neg]; simp, id, rfl⟩
  | cons w ws ih =>
    simp only [writeWords] at h
    split at h
    · cases h
    · rename_i u hu
      obtain ⟨ha, hf, rfl⟩ := wordWrite_ok_iff.1 hu
      obtain ⟨hw, hg, hwf, hr⟩ := ih h
      refine ⟨fun b => ?_, fun b => ?_, fun m => hwf (Memory.setWord_wf m _ _), ?_⟩
      · rw [hw, written_putWord ha, Bool.or_assoc, ← Bool.decide_or]
        congr 2
        simp only [List.length_cons, eq_iff_iff]
        omega
      · rw [hg]
        simp only [List.length_cons, State.putWord_img, Memory.get_setWord]
        by_cases e : b / 4 = a
        · rw [if_neg (by omega), if_pos e, if_pos (by omega), e, Nat.sub_self]
          rfl
        · by_cases r : a + 1 ≤ b / 4 ∧ b / 4 < a + 1 + ws.length
          · rw [if_pos r, if_pos (by omega), show b / 4 - a = (b / 4 - (a + 1)) + 1 by omega]
            rfl
          · rw [if_neg r, if_neg e, if_neg (by omega)]
      · rw [hr]; rfl

/-- When no word of the range is written and the range lies in the image, the writes succeed. -/
theorem writeWords_ok {a : Nat} {ws : List Word} {s : State} (hin : a + ws.length ≤ imageWords)
    (hfree : ∀ b, a ≤ b → b < a + ws.length → s.written b = false) :
    ∃ t, writeWords a ws s = .ok t := by
  induction ws generalizing a s with
  | nil => exact ⟨s, rfl⟩
  | cons w ws ih =>
    simp only [List.length_cons] at hin hfree
    have h1 : wordWrite a w s = .ok (s.putWord a w) :=
      wordWrite_ok_iff.2 ⟨by omega, hfree a (by omega) (by omega), rfl⟩
    simp only [writeWords, h1]
    refine ih (by omega) fun b hb hb' => ?_
    rw [written_putWord (by omega), hfree b (by omega) (by omega)]
    simp; omega

/-! ### The answer of unit ENC -/

/-- The two things an encode operation can do to the state (R121, R251). -/
theorem encoded_cases (r : Except RangeFailure Word) (s : State) :
    (∃ w, r = .ok w ∧ s.encoded r = .next (s.pushWord w)) ∨
    (∃ e, r = .error e ∧ s.encoded r = .next
      (s.raise .encodingRange (order s.seq) (some s.ws.length) e.field e.value)) := by
  cases r with
  | ok w => exact .inl ⟨w, rfl, rfl⟩
  | error e => exact .inr ⟨e, rfl, rfl⟩

/-! ### MemRead (R54) -/

theorem getBytes_length {m : Memory} {b n : Nat} {bs : List Byte} (h : m.getBytes b n = some bs) :
    bs.length = n := by
  induction n generalizing b bs with
  | zero => simp [Memory.getBytes] at h; simp [← h]
  | succ n ih =>
    simp only [Memory.getBytes] at h
    split at h
    · rename_i v vs _ h2
      cases h
      simp [ih h2]
    · cases h

theorem getBytes_isSome {m : Memory} {b n : Nat}
    (h : ∀ a, b ≤ a → a < b + n → (m.get a).isSome = true) : ∃ bs, m.getBytes b n = some bs := by
  induction n generalizing b with
  | zero => exact ⟨[], rfl⟩
  | succ n ih =>
    obtain ⟨bs, hbs⟩ := ih (b := b + 1) fun a ha ha' => h a (by omega) (by omega)
    obtain ⟨v, hv⟩ := Option.isSome_iff_exists.1 (h b (by omega) (by omega))
    exact ⟨v :: bs, by simp only [Memory.getBytes, hv, hbs]⟩

end Sys2Proof.Machine
end

