-- ==== Sys2Proof/Laws/Plan.lean ====
section
/-! SUPPORT. The laws of the static plan: the order is inverse to the place of a slot, and the 882 slots in
ascending address order tile the image. -/

namespace Sys2Proof.Machine

/-! ### The parts of `Cfg.wf` -/

/-- A configuration of this hardware meets every constraint of R6. -/
theorem Cfg.wf_iff (c : Cfg) : c.wf = true ↔
    c.namesOk = true ∧ c.jregOk = true ∧ c.dtOk = true ∧ c.slotsOk = true ∧ c.stridesOk = true ∧
      c.buildOk = true ∧ c.unoccupiedOk = true := by
  simp only [Cfg.wf, Bool.and_eq_true, and_assoc]

theorem Cfg.jregOk_of_wf {c : Cfg} (h : c.wf = true) : c.jregOk = true := ((Cfg.wf_iff c).1 h).2.1

theorem Cfg.stridesOk_of_wf {c : Cfg} (h : c.wf = true) : c.stridesOk = true :=
  ((Cfg.wf_iff c).1 h).2.2.2.2.1

theorem Cfg.buildOk_of_wf {c : Cfg} (h : c.wf = true) : c.buildOk = true :=
  ((Cfg.wf_iff c).1 h).2.2.2.2.2.1

theorem Cfg.unoccupiedOk_of_wf {c : Cfg} (h : c.wf = true) : c.unoccupiedOk = true :=
  ((Cfg.wf_iff c).1 h).2.2.2.2.2.2

theorem Cfg.strides {c : Cfg} (h : c.stridesOk = true) : c.modeStride = 256 ∧ c.opcodeStride = 8 := by
  simpa [Cfg.stridesOk] using h

/-! ### The order (R161) -/

/-- The number of a slot in the order (R161). -/
def slotNumber : SlotId → Nat
  | .rr k => k.val
  | .ri k => 32 + k.val
  | .crr => 64
  | .crw => 65
  | .svc k => 66 + k.val
  | .mi m k => 82 + 32 * m.val + k.val
  | .rm m k => 338 + 32 * m.val + k.val
  | .mr m k => 594 + 32 * m.val + k.val
  | .jc k => 850 + k.val
  | .misc k => 866 + k.val

theorem slotNumber_lt (slot : SlotId) : slotNumber slot < slotCount := by
  cases slot <;> simp only [slotNumber, slotCount] <;> omega

theorem slotNumber_of_order {n : Nat} {slot : SlotId} (h : order n = some slot) :
    slotNumber slot = n := by
  unfold order at h
  split_ifs at h <;> cases h <;> simp only [slotNumber, Fin.val_ofNat] <;> omega

theorem order_of_slotNumber {n : Nat} {slot : SlotId} (h : slotNumber slot = n) :
    order n = some slot := by
  cases slot <;> simp only [slotNumber] at h <;>
    simp (disch := omega) only [order, if_pos, if_neg, Option.some.injEq]
  all_goals first
    | (simp only [SlotId.mi.injEq, SlotId.rm.injEq, SlotId.mr.injEq, Fin.ext_iff, Fin.val_ofNat]; omega)
    | (simp only [SlotId.rr.injEq, SlotId.ri.injEq, SlotId.svc.injEq, SlotId.jc.injEq,
        SlotId.misc.injEq, Fin.ext_iff, Fin.val_ofNat]; omega)

/-- Slot number `n` is `slot`: the one way to use `order` in a proof. -/
theorem order_eq_some_iff {n : Nat} {slot : SlotId} : order n = some slot ↔ slotNumber slot = n :=
  ⟨slotNumber_of_order, order_of_slotNumber⟩

theorem lt_of_order {n : Nat} {slot : SlotId} (h : order n = some slot) : n < 882 :=
  slotNumber_of_order h ▸ slotNumber_lt slot

theorem order_isSome_iff (n : Nat) : (order n).isSome = true ↔ n < 882 := by
  simp only [order]
  repeat' split
  all_goals simp only [Option.isSome_some, Option.isSome_none, true_iff, false_iff, Bool.false_eq_true]
  all_goals omega

theorem order_eq_none_iff (n : Nat) : order n = none ↔ 882 ≤ n := by
  rw [← Option.not_isSome_iff_eq_none, order_isSome_iff, Nat.not_lt]

theorem order_beyond {n : Nat} (h : 882 ≤ n) : order n = none := (order_eq_none_iff n).2 h

theorem window_pos (slot : SlotId) : 0 < window slot := by cases slot <;> simp [window]

theorem slotStart_of_order {n : Nat} {slot : SlotId} (h : order n = some slot) (c : Cfg) :
    slotStart c n = base c slot := by
  simp [slotStart, h]

/-- The base of every slot as a number of its place in the order (R161, R162). -/
theorem base_eq {c : Cfg} (h : c.stridesOk = true) {n : Nat} {slot : SlotId} (hn : slotNumber slot = n) :
    base c slot =
      if n < 64 then 4 * n else if n < 66 then 256 + 128 * (n - 64)
      else if n < 82 then 512 + 32 * (n - 66)
      else if n < 850 then 1024 + 8 * (n - 82) else 7168 + 32 * (n - 850) := by
  obtain ⟨h1, h2⟩ := Cfg.strides h
  cases slot <;> simp only [base, slotNumber, h1, h2] at hn ⊢ <;> split_ifs <;> omega

/-- The start of every slot number, the end of the image included (R161, R162). -/
theorem slotStart_eq {c : Cfg} (h : c.stridesOk = true) (n : Nat) :
    slotStart c n =
      if n < 64 then 4 * n else if n < 66 then 256 + 128 * (n - 64)
      else if n < 82 then 512 + 32 * (n - 66)
      else if n < 850 then 1024 + 8 * (n - 82)
      else if n < 882 then 7168 + 32 * (n - 850) else 8192 := by
  cases ho : order n with
  | some slot =>
    rw [slotStart_of_order ho, base_eq h (slotNumber_of_order ho)]
    have := lt_of_order ho
    split_ifs <;> omega
  | none =>
    have := (order_eq_none_iff n).1 ho
    simp only [slotStart, ho, imageWords]
    split_ifs <;> omega

/-- The window of every slot as a number of its place in the order (R161, R163). -/
theorem window_eq {n : Nat} {slot : SlotId} (h : order n = some slot) :
    window slot = if n < 64 then 4 else if n < 66 then 128 else if n < 82 then 32
      else if n < 850 then 8 else 32 := by
  have hn := slotNumber_of_order h
  clear h
  cases slot <;> simp only [window, slotNumber] at hn ⊢ <;> split_ifs <;> omega

/-- Each window ends where the next one begins (R162, R69). -/
theorem slotStart_succ {c : Cfg} (h : c.stridesOk = true) {n : Nat} {slot : SlotId}
    (ho : order n = some slot) : slotStart c (n + 1) = slotStart c n + window slot := by
  have hn := lt_of_order ho
  rw [slotStart_eq h, slotStart_eq h, window_eq ho]
  split_ifs <;> omega

theorem slotStart_le {c : Cfg} (h : c.stridesOk = true) (n : Nat) : slotStart c n ≤ imageWords := by
  rw [slotStart_eq h]
  simp only [imageWords]
  split_ifs <;> omega

end Sys2Proof.Machine
end

