-- ==== Sys2Proof/Laws/Assembler.lean ====
section
/-! SUPPORT. What executing a micro-op, a program and a step can do, said once. -/

namespace Sys2Proof.Machine

/-- Executing a micro-op is encoding it (R12, R121). -/
theorem exec_eq (i : Instr) (s : State) : exec i s = s.encoded (encode s.cfg.jregBits i) := by
  cases i <;> rfl

/-- What executing one micro-op can do: push its word, or abort. -/
theorem exec_cases (i : Instr) (s : State) :
    (∃ w, encode s.cfg.jregBits i = .ok w ∧ exec i s = .next (s.pushWord w)) ∨
    (∃ e, encode s.cfg.jregBits i = .error e ∧ exec i s = .next
      (s.raise .encodingRange (order s.seq) (some s.ws.length) e.field e.value)) := by
  rw [exec_eq]
  exact encoded_cases _ s

theorem encode_ok_iff_wf (layout : Vector Word 64) (i : Instr) :
    (∃ w, encode layout i = .ok w) ↔ i.wf = true := by
  cases i with
  | alui kind srcA imm dest uf eoi adv size =>
    simp only [encode, encAlui, Instr.wf]; split <;> simp_all
  | ldc dest imm => simp only [encode, encLdc, Instr.wf]; split <;> simp_all
  | ji creg cond off => simp only [encode, encJi, Instr.wf]; split <;> simp_all
  | _ => simp [encode, Instr.wf]

/-- ENC.PROG, the fold of `exec`, against its definition as a function (R121). -/
theorem encProg_eq (p : List Instr) (s : State) (h : s.abort = false) :
    encProg p s = match encodeProgram.go s.cfg.jregBits s.ws.length p with
      | .ok ws => .next (s.withWords (s.ws ++ ws))
      | .error (e, k) => .next (s.raise .encodingRange (order s.seq) (some k) e.field e.value) := by
  induction p generalizing s with
  | nil => simp [encProg, encodeProgram.go, State.withWords]
  | cons i is ih =>
    simp only [encProg, encodeProgram.go]
    rcases exec_cases i s with ⟨w, hw, hx⟩ | ⟨e, he, hx⟩
    · rw [hx, hw]
      simp only [State.pushWord_abort, h, Bool.false_eq_true, if_false]
      rw [ih _ (by simpa using h)]
      simp only [State.pushWord_cfg, State.pushWord_ws, List.length_append, List.length_singleton]
      cases encodeProgram.go s.cfg.jregBits (s.ws.length + 1) is with
      | ok ws => simp [State.pushWord, State.withWords]
      | error x => rfl
    · rw [hx, he]
      simp

/-- ENC.PROG from the start of a program. -/
theorem encProg_start (p : List Instr) (s : State) (h : s.abort = false) :
    encProg p s.startProgram = match encodeProgram s.cfg.jregBits p with
      | .ok ws => .next (s.withWords ws)
      | .error (e, k) => .next (s.raise .encodingRange (order s.seq) (some k) e.field e.value) := by
  rw [encProg_eq p s.startProgram (by simpa using h)]
  simp only [State.startProgram_cfg, State.startProgram_ws, List.length_nil, List.nil_append,
    encodeProgram]
  cases encodeProgram.go s.cfg.jregBits 0 p with
  | ok ws => rfl
  | error x => rfl

theorem encodeProgram_go_length {layout : Vector Word 64} {k : Nat} {p : List Instr} {ws : List Word}
    (h : encodeProgram.go layout k p = .ok ws) : ws.length = p.length := by
  induction p generalizing k ws with
  | nil => cases h; rfl
  | cons i is ih =>
    simp only [encodeProgram.go] at h
    split at h
    · cases h
    · split at h
      · cases h
      · rename_i h2
        cases h
        simp [ih h2]

theorem encodeProgram_length {layout : Vector Word 64} {p : List Instr} {ws : List Word}
    (h : encodeProgram layout p = .ok ws) : ws.length = p.length := encodeProgram_go_length h

theorem windowWords_length {n : Nat} {ws : List Word} (h : ws.length ≤ n) :
    (windowWords n ws).length = n := by
  simp only [windowWords, List.length_append, List.length_replicate]
  omega

theorem windowWords_getElem? {n : Nat} {ws : List Word} {i : Nat} (h : i < n) (hl : ws.length ≤ n) :
    (windowWords n ws)[i]? = some (windowWord ws i) := by
  simp only [windowWords, windowWord, List.getElem?_append, List.getD_eq_getElem?_getD]
  split
  · simp [*]
  · rw [List.getElem?_replicate, if_pos (by omega), List.getElem?_eq_none (by omega)]
    rfl

/-- One step that answers a next state: every way it can (R164). `p` is the builder's program. -/
theorem step_cases {s t : State} (h : step s = .next t) :
    ∃ slot, order s.seq = some slot ∧ s.abort = false ∧ s.done = false ∧
      ((window slot < (programFor s slot).length ∧
          t = s.raise .layoutMismatch (some slot) none .length (programFor s slot).length) ∨
       ((programFor s slot).length ≤ window slot ∧ ∃ e k,
          encodeProgram s.cfg.jregBits (programFor s slot) = .error (e, k) ∧
          t = s.raise .encodingRange (some slot) (some k) e.field e.value) ∨
       ((programFor s slot).length ≤ window slot ∧ ∃ ws,
          encodeProgram s.cfg.jregBits (programFor s slot) = .ok ws ∧
          ((∃ a, place slot ws (s.withWords ws) = .error (.overlap a) ∧
              t = s.raise .layoutMismatch (some slot) none .overlap a) ∨
           (∃ u, place slot ws (s.withWords ws) = .ok u ∧
              ((s.seq + 1 ≠ 882 ∧ t = u.advance) ∨
               (s.seq + 1 = 882 ∧ allWritten u.wr = true ∧ t = u.advance.setDone) ∨
               (s.seq + 1 = 882 ∧ allWritten u.wr = false ∧
                  t = s.raise .layoutMismatch none none .overlap (reportedUnwritten u.advance))))))) := by
  simp only [step, asmStep] at h
  split at h
  · cases h
  rename_i ha
  split at h
  · cases h
  rename_i hd
  split at h
  · cases h
  rename_i slot ho
  refine ⟨slot, ho, by simpa using ha, by simpa using hd, ?_⟩
  simp only [asmSlot] at h
  split at h
  · rename_i hl
    cases h
    exact .inl ⟨hl, rfl⟩
  rename_i hl
  right
  rw [encProg_start _ _ (by simpa using ha)] at h
  cases hp : encodeProgram s.cfg.jregBits (programFor s slot) with
  | error x =>
    left
    rw [hp] at h
    simp only [State.raise_abort, if_true] at h
    cases h
    exact ⟨by omega, x.1, x.2, rfl, by rw [ho]⟩
  | ok ws =>
    right
    rw [hp] at h
    dsimp only at h
    rw [if_neg (show ¬(s.withWords ws).abort = true from ha)] at h
    refine ⟨by omega, ws, rfl, ?_⟩
    simp only [completeSlot] at h
    split at h
    · cases h
    · rename_i a hpl
      cases h
      exact .inl ⟨a, hpl, rfl⟩
    · rename_i u hpl
      have hs : u.advance.seq = s.seq + 1 := by
        rw [State.advance_seq, (writeWords_wrote hpl).rest]
        rfl
      refine .inr ⟨u, hpl, ?_⟩
      rw [hs] at h
      split at h
      · rename_i h2
        right
        simp only [finish] at h
        by_cases h3 : allWritten u.wr = true
        · rw [if_pos (show allWritten u.advance.wr = true from h3)] at h
          cases h
          exact .inl ⟨h2, h3, rfl⟩
        · rw [if_neg (show ¬allWritten u.advance.wr = true from h3)] at h
          cases h
          exact .inr ⟨h2, by simpa using h3, rfl⟩
      · rename_i h2
        cases h
        exact .inl ⟨h2, rfl⟩

end Sys2Proof.Machine
end

