-- ==== Sys2Proof/Laws/Builder.lean ====
section
/-! SUPPORT. What a builder call can answer, and what a step passes to the host's log. -/

namespace Sys2Proof.Machine

/-- A builder call answers nothing, or what some row for the slot and the table answers (R200). -/
theorem build_cases (c : Cfg) (slot : SlotId) (rev : Rev) (dt : DescriptorTable) :
    build c slot rev dt = none ∨
    ∃ e, e ∈ c.build ∧ e.slot = slot ∧ answersTable e dt = true ∧
      build c slot rev dt = answerFor e.answer rev := by
  simp only [build]
  split
  · exact .inl rfl
  · rename_i e he
    have hp := List.find?_some he
    simp only [Bool.and_eq_true, decide_eq_true_eq] at hp
    exact .inr ⟨e, List.mem_of_find?_eq_some he, hp.1, hp.2, rfl⟩

/-- An answer that is empty under both revisions (R204). -/
theorem answerFor_of_isNone {a : BuilderAnswer} (h : a.isNone = true) (rev : Rev) :
    answerFor a rev = none := by
  cases a <;> cases rev <;> simp_all [BuilderAnswer.isNone, answerFor]

/-- No label exactly when there is no program (R167, R203). -/
theorem labelOf_eq_none_iff (r : Option BuildResult) : labelOf r = none ↔ programOf r = [] := by
  cases r <;> simp [labelOf, programOf]

/-- What a step passes to the host's log (R164, R203). -/
theorem stepLabel_eq_some_iff {s : State} {slot : SlotId} {text : String} :
    stepLabel s = some (slot, text) ↔ s.enabled = true ∧ order s.seq = some slot ∧
      ∃ r, build s.cfg slot (revOf s) s.rom = some r ∧ r.program ≠ [] ∧ r.label = text := by
  simp only [stepLabel]
  split
  · rename_i h
    cases ho : order s.seq with
    | none => simp
    | some k =>
      simp only [h, true_and, Option.bind_some, Option.map_eq_some_iff, Prod.mk.injEq,
        Option.some.injEq]
      constructor
      · rintro ⟨a, ha, rfl, rfl⟩
        refine ⟨rfl, ?_⟩
        cases hb : build s.cfg k (revOf s) s.rom with
        | none => simp [hb, labelOf] at ha
        | some r => simpa [hb, labelOf] using ha
      · rintro ⟨rfl, r, hb, hp, rfl⟩
        exact ⟨r.label, by simp [hb, labelOf, hp], rfl, rfl⟩
  · simp [*]

end Sys2Proof.Machine
end

