-- ==== Sys2Proof/Laws/Operands.lean ====
section
/-! SUPPORT. The laws of the operand forms: two's complement patterns and ALU-kind codes. -/

namespace Sys2Proof

theorem fits_iff (n : Nat) (v : Int) :
    fits n v = true ↔ -(2 ^ (n - 1)) ≤ v ∧ v ≤ 2 ^ (n - 1) - 1 := by
  simp [fits]

/-- `sext_N(tc_N(v)) = v` (R8). -/
theorem sext_tc {n : Nat} (hn : 0 < n) {v : Int} (h : fits n v = true) : sext (tc n v) = v := by
  obtain ⟨m, rfl⟩ : ∃ m, n = m + 1 := ⟨n - 1, by omega⟩
  rw [fits_iff, Nat.add_sub_cancel] at h
  simp only [sext, tc, BitVec.toInt_ofInt, Nat.pow_succ]
  have hp : ((2 : Int) ^ m) = ((2 ^ m : Nat) : Int) := by push_cast; rfl
  rw [hp] at h
  refine Int.bmod_eq_of_le ?_ ?_ <;> push_cast at * <;> omega

/-- Every pattern is the pattern of its signed value, and that value fits (R8). -/
theorem tc_sext {n : Nat} (u : BitVec n) : tc n (sext u) = u := BitVec.ofInt_toInt

theorem fits_sext {n : Nat} (hn : 0 < n) (u : BitVec n) : fits n (sext u) = true := by
  obtain ⟨m, rfl⟩ : ∃ m, n = m + 1 := ⟨n - 1, by omega⟩
  rw [fits_iff]
  have h1 := BitVec.le_toInt u
  have h2 := BitVec.toInt_lt (x := u)
  simp only [sext] at *
  exact ⟨h1, by omega⟩

/-- The value of a pattern is `v mod 2^N` (R120). -/
theorem tc_toNat (n : Nat) (v : Int) : ((tc n v).toNat : Int) = v % 2 ^ n := by
  simp only [tc, BitVec.toNat_ofInt]
  have h0 : (0 : Int) ≤ v % ((2 ^ n : Nat) : Int) := Int.emod_nonneg _ (by positivity)
  rw [Int.toNat_of_nonneg h0]
  push_cast
  rfl

theorem kindOfCode_code (k : AluKind) : kindOfCode k.code = some k := by
  cases k with
  | bin k => revert k; decide
  | load => decide
  | store => decide

theorem code_of_kindOfCode {c : BitVec 5} {k : AluKind} (h : kindOfCode c = some k) : k.code = c := by
  have all : ∀ c : BitVec 5, (kindOfCode c).all (fun k => k.code = c) = true := by decide
  simpa [h] using all c

/-- The codes with no meaning are 16..29 (R91). -/
theorem kindOfCode_eq_none_iff (c : BitVec 5) :
    kindOfCode c = none ↔ 16 ≤ c.toNat ∧ c.toNat ≤ 29 := by
  revert c; decide

end Sys2Proof
end

