-- ==== Sys2Proof/Laws/Encoding.lean ====
section
/-! SUPPORT. The bits of the words unit ENC makes: each format as a concatenation of its fields, each
field of a word read back. -/

namespace Sys2Proof

/-- Formats `ALUR` and `ALUI` (R81, R82): the fields from bit 31 down. -/
def aluWord (top : BitVec 1) (adv : BitVec 1) (size : BitVec 3) (srcA : BitVec 6) (srcB : BitVec 6) (dest : BitVec 6) (kind : BitVec 5) (uf : BitVec 1) (eoi : BitVec 1) (tag : BitVec 2) : Word :=
  top ++ adv ++ size ++ srcA ++ srcB ++ dest ++ kind ++ uf ++ eoi ++ tag

theorem aluWord_getLsbD (top : BitVec 1) (adv : BitVec 1) (size : BitVec 3) (srcA : BitVec 6) (srcB : BitVec 6) (dest : BitVec 6) (kind : BitVec 5) (uf : BitVec 1) (eoi : BitVec 1) (tag : BitVec 2) (i : Nat) :
    (aluWord top adv size srcA srcB dest kind uf eoi tag).getLsbD i =
      if i < 2 then tag.getLsbD (i)
      else if i - 2 < 1 then eoi.getLsbD (i - 2)
      else if i - 2 - 1 < 1 then uf.getLsbD (i - 2 - 1)
      else if i - 2 - 1 - 1 < 5 then kind.getLsbD (i - 2 - 1 - 1)
      else if i - 2 - 1 - 1 - 5 < 6 then dest.getLsbD (i - 2 - 1 - 1 - 5)
      else if i - 2 - 1 - 1 - 5 - 6 < 6 then srcB.getLsbD (i - 2 - 1 - 1 - 5 - 6)
      else if i - 2 - 1 - 1 - 5 - 6 - 6 < 6 then srcA.getLsbD (i - 2 - 1 - 1 - 5 - 6 - 6)
      else if i - 2 - 1 - 1 - 5 - 6 - 6 - 6 < 3 then size.getLsbD (i - 2 - 1 - 1 - 5 - 6 - 6 - 6)
      else if i - 2 - 1 - 1 - 5 - 6 - 6 - 6 - 3 < 1 then adv.getLsbD (i - 2 - 1 - 1 - 5 - 6 - 6 - 6 - 3)
      else top.getLsbD (i - 2 - 1 - 1 - 5 - 6 - 6 - 6 - 3 - 1) := by
  show (top ++ adv ++ size ++ srcA ++ srcB ++ dest ++ kind ++ uf ++ eoi ++ tag).getLsbD i = _
  simp only [BitVec.getLsbD_append]

@[simp] theorem field_aluWord_tag (top : BitVec 1) (adv : BitVec 1) (size : BitVec 3) (srcA : BitVec 6) (srcB : BitVec 6) (dest : BitVec 6) (kind : BitVec 5) (uf : BitVec 1) (eoi : BitVec 1) (tag : BitVec 2) :
    field 0 2 (aluWord top adv size srcA srcB dest kind uf eoi tag) = tag := by
  refine BitVec.eq_of_getLsbD_eq fun i hi => ?_
  simp only [field, BitVec.getLsbD_extractLsb', aluWord_getLsbD]
  grind

@[simp] theorem field_aluWord_eoi (top : BitVec 1) (adv : BitVec 1) (size : BitVec 3) (srcA : BitVec 6) (srcB : BitVec 6) (dest : BitVec 6) (kind : BitVec 5) (uf : BitVec 1) (eoi : BitVec 1) (tag : BitVec 2) :
    field 2 1 (aluWord top adv size srcA srcB dest kind uf eoi tag) = eoi := by
  refine BitVec.eq_of_getLsbD_eq fun i hi => ?_
  simp only [field, BitVec.getLsbD_extractLsb', aluWord_getLsbD]
  grind

@[simp] theorem field_aluWord_uf (top : BitVec 1) (adv : BitVec 1) (size : BitVec 3) (srcA : BitVec 6) (srcB : BitVec 6) (dest : BitVec 6) (kind : BitVec 5) (uf : BitVec 1) (eoi : BitVec 1) (tag : BitVec 2) :
    field 3 1 (aluWord top adv size srcA srcB dest kind uf eoi tag) = uf := by
  refine BitVec.eq_of_getLsbD_eq fun i hi => ?_
  simp only [field, BitVec.getLsbD_extractLsb', aluWord_getLsbD]
  grind

@[simp] theorem field_aluWord_kind (top : BitVec 1) (adv : BitVec 1) (size : BitVec 3) (srcA : BitVec 6) (srcB : BitVec 6) (dest : BitVec 6) (kind : BitVec 5) (uf : BitVec 1) (eoi : BitVec 1) (tag : BitVec 2) :
    field 4 5 (aluWord top adv size srcA srcB dest kind uf eoi tag) = kind := by
  refine BitVec.eq_of_getLsbD_eq fun i hi => ?_
  simp only [field, BitVec.getLsbD_extractLsb', aluWord_getLsbD]
  grind

@[simp] theorem field_aluWord_dest (top : BitVec 1) (adv : BitVec 1) (size : BitVec 3) (srcA : BitVec 6) (srcB : BitVec 6) (dest : BitVec 6) (kind : BitVec 5) (uf : BitVec 1) (eoi : BitVec 1) (tag : BitVec 2) :
    field 9 6 (aluWord top adv size srcA srcB dest kind uf eoi tag) = dest := by
  refine BitVec.eq_of_getLsbD_eq fun i hi => ?_
  simp only [field, BitVec.getLsbD_extractLsb', aluWord_getLsbD]
  grind

@[simp] theorem field_aluWord_srcB (top : BitVec 1) (adv : BitVec 1) (size : BitVec 3) (srcA : BitVec 6) (srcB : BitVec 6) (dest : BitVec 6) (kind : BitVec 5) (uf : BitVec 1) (eoi : BitVec 1) (tag : BitVec 2) :
    field 15 6 (aluWord top adv size srcA srcB dest kind uf eoi tag) = srcB := by
  refine BitVec.eq_of_getLsbD_eq fun i hi => ?_
  simp only [field, BitVec.getLsbD_extractLsb', aluWord_getLsbD]
  grind

@[simp] theorem field_aluWord_srcA (top : BitVec 1) (adv : BitVec 1) (size : BitVec 3) (srcA : BitVec 6) (srcB : BitVec 6) (dest : BitVec 6) (kind : BitVec 5) (uf : BitVec 1) (eoi : BitVec 1) (tag : BitVec 2) :
    field 21 6 (aluWord top adv size srcA srcB dest kind uf eoi tag) = srcA := by
  refine BitVec.eq_of_getLsbD_eq fun i hi => ?_
  simp only [field, BitVec.getLsbD_extractLsb', aluWord_getLsbD]
  grind

@[simp] theorem field_aluWord_size (top : BitVec 1) (adv : BitVec 1) (size : BitVec 3) (srcA : BitVec 6) (srcB : BitVec 6) (dest : BitVec 6) (kind : BitVec 5) (uf : BitVec 1) (eoi : BitVec 1) (tag : BitVec 2) :
    field 27 3 (aluWord top adv size srcA srcB dest kind uf eoi tag) = size := by
  refine BitVec.eq_of_getLsbD_eq fun i hi => ?_
  simp only [field, BitVec.getLsbD_extractLsb', aluWord_getLsbD]
  grind

@[simp] theorem field_aluWord_adv (top : BitVec 1) (adv : BitVec 1) (size : BitVec 3) (srcA : BitVec 6) (srcB : BitVec 6) (dest : BitVec 6) (kind : BitVec 5) (uf : BitVec 1) (eoi : BitVec 1) (tag : BitVec 2) :
    field 30 1 (aluWord top adv size srcA srcB dest kind uf eoi tag) = adv := by
  refine BitVec.eq_of_getLsbD_eq fun i hi => ?_
  simp only [field, BitVec.getLsbD_extractLsb', aluWord_getLsbD]
  grind

@[simp] theorem field_aluWord_top (top : BitVec 1) (adv : BitVec 1) (size : BitVec 3) (srcA : BitVec 6) (srcB : BitVec 6) (dest : BitVec 6) (kind : BitVec 5) (uf : BitVec 1) (eoi : BitVec 1) (tag : BitVec 2) :
    field 31 1 (aluWord top adv size srcA srcB dest kind uf eoi tag) = top := by
  refine BitVec.eq_of_getLsbD_eq fun i hi => ?_
  simp only [field, BitVec.getLsbD_extractLsb', aluWord_getLsbD]
  grind

/-- Format `LDC` (R83): the fields from bit 31 down. -/
def ldcWord (hi : BitVec 17) (dest : BitVec 6) (lo : BitVec 7) (tag : BitVec 2) : Word :=
  hi ++ dest ++ lo ++ tag

theorem ldcWord_getLsbD (hi : BitVec 17) (dest : BitVec 6) (lo : BitVec 7) (tag : BitVec 2) (i : Nat) :
    (ldcWord hi dest lo tag).getLsbD i =
      if i < 2 then tag.getLsbD (i)
      else if i - 2 < 7 then lo.getLsbD (i - 2)
      else if i - 2 - 7 < 6 then dest.getLsbD (i - 2 - 7)
      else hi.getLsbD (i - 2 - 7 - 6) := by
  show (hi ++ dest ++ lo ++ tag).getLsbD i = _
  simp only [BitVec.getLsbD_append]

@[simp] theorem field_ldcWord_tag (hi : BitVec 17) (dest : BitVec 6) (lo : BitVec 7) (tag : BitVec 2) :
    field 0 2 (ldcWord hi dest lo tag) = tag := by
  refine BitVec.eq_of_getLsbD_eq fun i hi => ?_
  simp only [field, BitVec.getLsbD_extractLsb', ldcWord_getLsbD]
  grind

@[simp] theorem field_ldcWord_lo (hi : BitVec 17) (dest : BitVec 6) (lo : BitVec 7) (tag : BitVec 2) :
    field 2 7 (ldcWord hi dest lo tag) = lo := by
  refine BitVec.eq_of_getLsbD_eq fun i hi => ?_
  simp only [field, BitVec.getLsbD_extractLsb', ldcWord_getLsbD]
  grind

@[simp] theorem field_ldcWord_dest (hi : BitVec 17) (dest : BitVec 6) (lo : BitVec 7) (tag : BitVec 2) :
    field 9 6 (ldcWord hi dest lo tag) = dest := by
  refine BitVec.eq_of_getLsbD_eq fun i hi => ?_
  simp only [field, BitVec.getLsbD_extractLsb', ldcWord_getLsbD]
  grind

@[simp] theorem field_ldcWord_hi (hi : BitVec 17) (dest : BitVec 6) (lo : BitVec 7) (tag : BitVec 2) :
    field 15 17 (ldcWord hi dest lo tag) = hi := by
  refine BitVec.eq_of_getLsbD_eq fun i hi => ?_
  simp only [field, BitVec.getLsbD_extractLsb', ldcWord_getLsbD]
  grind

/-- Format `JI` (R84): the fields from bit 31 down. -/
def jiWord (top : BitVec 1) (cond : BitVec 4) (creg : BitVec 6) (mid : BitVec 6) (zero : BitVec 6) (lo : BitVec 7) (tag : BitVec 2) : Word :=
  top ++ cond ++ creg ++ mid ++ zero ++ lo ++ tag

theorem jiWord_getLsbD (top : BitVec 1) (cond : BitVec 4) (creg : BitVec 6) (mid : BitVec 6) (zero : BitVec 6) (lo : BitVec 7) (tag : BitVec 2) (i : Nat) :
    (jiWord top cond creg mid zero lo tag).getLsbD i =
      if i < 2 then tag.getLsbD (i)
      else if i - 2 < 7 then lo.getLsbD (i - 2)
      else if i - 2 - 7 < 6 then zero.getLsbD (i - 2 - 7)
      else if i - 2 - 7 - 6 < 6 then mid.getLsbD (i - 2 - 7 - 6)
      else if i - 2 - 7 - 6 - 6 < 6 then creg.getLsbD (i - 2 - 7 - 6 - 6)
      else if i - 2 - 7 - 6 - 6 - 6 < 4 then cond.getLsbD (i - 2 - 7 - 6 - 6 - 6)
      else top.getLsbD (i - 2 - 7 - 6 - 6 - 6 - 4) := by
  show (top ++ cond ++ creg ++ mid ++ zero ++ lo ++ tag).getLsbD i = _
  simp only [BitVec.getLsbD_append]

@[simp] theorem field_jiWord_tag (top : BitVec 1) (cond : BitVec 4) (creg : BitVec 6) (mid : BitVec 6) (zero : BitVec 6) (lo : BitVec 7) (tag : BitVec 2) :
    field 0 2 (jiWord top cond creg mid zero lo tag) = tag := by
  refine BitVec.eq_of_getLsbD_eq fun i hi => ?_
  simp only [field, BitVec.getLsbD_extractLsb', jiWord_getLsbD]
  grind

@[simp] theorem field_jiWord_lo (top : BitVec 1) (cond : BitVec 4) (creg : BitVec 6) (mid : BitVec 6) (zero : BitVec 6) (lo : BitVec 7) (tag : BitVec 2) :
    field 2 7 (jiWord top cond creg mid zero lo tag) = lo := by
  refine BitVec.eq_of_getLsbD_eq fun i hi => ?_
  simp only [field, BitVec.getLsbD_extractLsb', jiWord_getLsbD]
  grind

@[simp] theorem field_jiWord_zero (top : BitVec 1) (cond : BitVec 4) (creg : BitVec 6) (mid : BitVec 6) (zero : BitVec 6) (lo : BitVec 7) (tag : BitVec 2) :
    field 9 6 (jiWord top cond creg mid zero lo tag) = zero := by
  refine BitVec.eq_of_getLsbD_eq fun i hi => ?_
  simp only [field, BitVec.getLsbD_extractLsb', jiWord_getLsbD]
  grind

@[simp] theorem field_jiWord_mid (top : BitVec 1) (cond : BitVec 4) (creg : BitVec 6) (mid : BitVec 6) (zero : BitVec 6) (lo : BitVec 7) (tag : BitVec 2) :
    field 15 6 (jiWord top cond creg mid zero lo tag) = mid := by
  refine BitVec.eq_of_getLsbD_eq fun i hi => ?_
  simp only [field, BitVec.getLsbD_extractLsb', jiWord_getLsbD]
  grind

@[simp] theorem field_jiWord_creg (top : BitVec 1) (cond : BitVec 4) (creg : BitVec 6) (mid : BitVec 6) (zero : BitVec 6) (lo : BitVec 7) (tag : BitVec 2) :
    field 21 6 (jiWord top cond creg mid zero lo tag) = creg := by
  refine BitVec.eq_of_getLsbD_eq fun i hi => ?_
  simp only [field, BitVec.getLsbD_extractLsb', jiWord_getLsbD]
  grind

@[simp] theorem field_jiWord_cond (top : BitVec 1) (cond : BitVec 4) (creg : BitVec 6) (mid : BitVec 6) (zero : BitVec 6) (lo : BitVec 7) (tag : BitVec 2) :
    field 27 4 (jiWord top cond creg mid zero lo tag) = cond := by
  refine BitVec.eq_of_getLsbD_eq fun i hi => ?_
  simp only [field, BitVec.getLsbD_extractLsb', jiWord_getLsbD]
  grind

@[simp] theorem field_jiWord_top (top : BitVec 1) (cond : BitVec 4) (creg : BitVec 6) (mid : BitVec 6) (zero : BitVec 6) (lo : BitVec 7) (tag : BitVec 2) :
    field 31 1 (jiWord top cond creg mid zero lo tag) = top := by
  refine BitVec.eq_of_getLsbD_eq fun i hi => ?_
  simp only [field, BitVec.getLsbD_extractLsb', jiWord_getLsbD]
  grind

/-- Format `JR` (R85): the fields from bit 31 down. -/
def jrWord (top : BitVec 1) (cond : BitVec 4) (creg : BitVec 6) (bits : BitVec 19) (tag : BitVec 2) : Word :=
  top ++ cond ++ creg ++ bits ++ tag

theorem jrWord_getLsbD (top : BitVec 1) (cond : BitVec 4) (creg : BitVec 6) (bits : BitVec 19) (tag : BitVec 2) (i : Nat) :
    (jrWord top cond creg bits tag).getLsbD i =
      if i < 2 then tag.getLsbD (i)
      else if i - 2 < 19 then bits.getLsbD (i - 2)
      else if i - 2 - 19 < 6 then creg.getLsbD (i - 2 - 19)
      else if i - 2 - 19 - 6 < 4 then cond.getLsbD (i - 2 - 19 - 6)
      else top.getLsbD (i - 2 - 19 - 6 - 4) := by
  show (top ++ cond ++ creg ++ bits ++ tag).getLsbD i = _
  simp only [BitVec.getLsbD_append]

@[simp] theorem field_jrWord_tag (top : BitVec 1) (cond : BitVec 4) (creg : BitVec 6) (bits : BitVec 19) (tag : BitVec 2) :
    field 0 2 (jrWord top cond creg bits tag) = tag := by
  refine BitVec.eq_of_getLsbD_eq fun i hi => ?_
  simp only [field, BitVec.getLsbD_extractLsb', jrWord_getLsbD]
  grind

@[simp] theorem field_jrWord_bits (top : BitVec 1) (cond : BitVec 4) (creg : BitVec 6) (bits : BitVec 19) (tag : BitVec 2) :
    field 2 19 (jrWord top cond creg bits tag) = bits := by
  refine BitVec.eq_of_getLsbD_eq fun i hi => ?_
  simp only [field, BitVec.getLsbD_extractLsb', jrWord_getLsbD]
  grind

@[simp] theorem field_jrWord_creg (top : BitVec 1) (cond : BitVec 4) (creg : BitVec 6) (bits : BitVec 19) (tag : BitVec 2) :
    field 21 6 (jrWord top cond creg bits tag) = creg := by
  refine BitVec.eq_of_getLsbD_eq fun i hi => ?_
  simp only [field, BitVec.getLsbD_extractLsb', jrWord_getLsbD]
  grind

@[simp] theorem field_jrWord_cond (top : BitVec 1) (cond : BitVec 4) (creg : BitVec 6) (bits : BitVec 19) (tag : BitVec 2) :
    field 27 4 (jrWord top cond creg bits tag) = cond := by
  refine BitVec.eq_of_getLsbD_eq fun i hi => ?_
  simp only [field, BitVec.getLsbD_extractLsb', jrWord_getLsbD]
  grind

@[simp] theorem field_jrWord_top (top : BitVec 1) (cond : BitVec 4) (creg : BitVec 6) (bits : BitVec 19) (tag : BitVec 2) :
    field 31 1 (jrWord top cond creg bits tag) = top := by
  refine BitVec.eq_of_getLsbD_eq fun i hi => ?_
  simp only [field, BitVec.getLsbD_extractLsb', jrWord_getLsbD]
  grind

/-! ### The encoders as concatenations -/

theorem encAlur_eq (kind : AluKind) (srcA srcB dest : Reg6) (uf eoi adv : Bool) (size : Size3) :
    encAlur kind srcA srcB dest uf eoi adv size =
      aluWord 0#1 (flagBit adv) size srcA srcB dest kind.code (flagBit uf) (flagBit eoi) 0b00#2 := rfl

theorem encAlui_ok {imm : Int} (h : fits 7 imm = true) (kind : AluKind) (srcA dest : Reg6)
    (uf eoi adv : Bool) (size : Size3) :
    encAlui kind srcA imm dest uf eoi adv size = .ok
      (aluWord ((tc 7 imm).extractLsb' 6 1) (flagBit adv) size srcA ((tc 7 imm).extractLsb' 0 6) dest
        kind.code (flagBit uf) (flagBit eoi) 0b01#2) := by
  rw [encAlui, if_pos h]; rfl

theorem encAlui_error {imm : Int} (h : fits 7 imm = false) (kind : AluKind) (srcA dest : Reg6)
    (uf eoi adv : Bool) (size : Size3) :
    encAlui kind srcA imm dest uf eoi adv size = .error ⟨.imm7, imm⟩ := by
  rw [encAlui, if_neg (by simp [h])]

theorem encLdc_ok {imm : Int} (h : fits 24 imm = true) (dest : Reg6) :
    encLdc dest imm = .ok
      (ldcWord ((tc 24 imm).extractLsb' 7 17) dest ((tc 24 imm).extractLsb' 0 7) 0b10#2) := by
  rw [encLdc, if_pos h]; rfl

theorem encLdc_error {imm : Int} (h : fits 24 imm = false) (dest : Reg6) :
    encLdc dest imm = .error ⟨.imm24, imm⟩ := by
  rw [encLdc, if_neg (by simp [h])]

theorem encJi_ok {off : Int} (h : fits 14 off = true) (creg : Reg6) (cond : Cond4) :
    encJi creg cond off = .ok
      (jiWord ((tc 14 off).extractLsb' 13 1) cond creg ((tc 14 off).extractLsb' 7 6) 0#6
        ((tc 14 off).extractLsb' 0 7) 0b11#2) := by
  rw [encJi, if_pos h]; rfl

theorem encJi_error {off : Int} (h : fits 14 off = false) (creg : Reg6) (cond : Cond4) :
    encJi creg cond off = .error ⟨.imm14, off⟩ := by
  rw [encJi, if_neg (by simp [h])]

theorem encJr_eq (layout : Vector Word 64) (creg : Reg6) (cond : Cond4) (oreg : Reg6) :
    encJr layout creg cond oreg =
      jrWord (layout[oreg.toFin].extractLsb' 31 1) cond creg (layout[oreg.toFin].extractLsb' 2 19)
        0b11#2 := rfl

theorem nopWord_eq : nopWord = jiWord 0#1 0#4 0#6 0#6 0#6 0#7 0b11#2 := by decide

/-! ### Split fields put together again -/

theorem split7 (u : BitVec 7) : (u.extractLsb' 6 1 ++ u.extractLsb' 0 6 : BitVec 7) = u := by
  revert u; decide

theorem split24 (u : BitVec 24) : (u.extractLsb' 7 17 ++ u.extractLsb' 0 7 : BitVec 24) = u := by
  refine BitVec.eq_of_getLsbD_eq fun i hi => ?_
  show (u.extractLsb' 7 17 ++ u.extractLsb' 0 7).getLsbD i = _
  simp only [BitVec.getLsbD_append, BitVec.getLsbD_extractLsb']
  grind

theorem split14 (u : BitVec 14) :
    (u.extractLsb' 13 1 ++ u.extractLsb' 7 6 ++ u.extractLsb' 0 7 : BitVec 14) = u := by
  refine BitVec.eq_of_getLsbD_eq fun i hi => ?_
  show (u.extractLsb' 13 1 ++ u.extractLsb' 7 6 ++ u.extractLsb' 0 7).getLsbD i = _
  simp only [BitVec.getLsbD_append, BitVec.getLsbD_extractLsb']
  grind

theorem flagAt_eq (i : Nat) (w : Word) : flagAt i w = (field i 1 w).getLsbD 0 := by
  simp [flagAt, field]

@[simp] theorem flagBit_getElem_zero (b : Bool) : (flagBit b)[0] = b := by
  cases b <;> rfl

@[simp] theorem flagBit_toNat (b : Bool) : (flagBit b).toNat = b.toNat := by
  cases b <;> rfl

theorem toNat_append_eq {n m : Nat} (x : BitVec n) (y : BitVec m) :
    (x ++ y).toNat = x.toNat * 2 ^ m + y.toNat := by
  rw [BitVec.toNat_append, ← Nat.shiftLeft_add_eq_or_of_lt y.isLt, Nat.shiftLeft_eq]

theorem tagOf_eq (w : Word) : tagOf w = field 0 2 w := rfl

/-- A word is the concatenation of its fields in the ALU formats. -/
theorem aluWord_fields (w : Word) :
    aluWord (field 31 1 w) (field 30 1 w) (field 27 3 w) (field 21 6 w) (field 15 6 w) (field 9 6 w)
      (field 4 5 w) (field 3 1 w) (field 2 1 w) (field 0 2 w) = w := by
  refine BitVec.eq_of_getLsbD_eq fun i hi => ?_
  simp only [aluWord_getLsbD, field, BitVec.getLsbD_extractLsb']
  repeat' split
  all_goals
    rw [decide_eq_true (by omega), Bool.true_and]
    congr 1
    omega

/-- A word is the concatenation of its fields in the load-constant format. -/
theorem ldcWord_fields (w : Word) :
    ldcWord (field 15 17 w) (field 9 6 w) (field 2 7 w) (field 0 2 w) = w := by
  refine BitVec.eq_of_getLsbD_eq fun i hi => ?_
  simp only [ldcWord_getLsbD, field, BitVec.getLsbD_extractLsb']
  repeat' split
  all_goals
    rw [decide_eq_true (by omega), Bool.true_and]
    congr 1
    omega

/-- A word is the concatenation of its fields in the immediate jump format. -/
theorem jiWord_fields (w : Word) :
    jiWord (field 31 1 w) (field 27 4 w) (field 21 6 w) (field 15 6 w) (field 9 6 w) (field 2 7 w)
      (field 0 2 w) = w := by
  refine BitVec.eq_of_getLsbD_eq fun i hi => ?_
  simp only [jiWord_getLsbD, field, BitVec.getLsbD_extractLsb']
  repeat' split
  all_goals
    rw [decide_eq_true (by omega), Bool.true_and]
    congr 1
    omega

/-- A word is the concatenation of its fields in the register jump format. -/
theorem jrWord_fields (w : Word) :
    jrWord (field 31 1 w) (field 27 4 w) (field 21 6 w) (field 2 19 w) (field 0 2 w) = w := by
  refine BitVec.eq_of_getLsbD_eq fun i hi => ?_
  simp only [jrWord_getLsbD, field, BitVec.getLsbD_extractLsb']
  repeat' split
  all_goals
    rw [decide_eq_true (by omega), Bool.true_and]
    congr 1
    omega

/-! ### The register-offset layout -/

theorem jregPart_getLsbD (w : Word) (i : Nat) :
    (jregPart w).getLsbD i = (w.getLsbD i && (decide (i = 31) || decide (2 ≤ i) && decide (i < 21))) := by
  have mask : ∀ i : Fin 32, jregMask.getLsbD i.val =
      (decide (i.val = 31) || decide (2 ≤ i.val) && decide (i.val < 21)) := by decide
  rw [jregPart, BitVec.getLsbD_and]
  by_cases hi : i < 32
  · rw [mask ⟨i, hi⟩]
  · rw [BitVec.getLsbD_of_ge w i (by omega)]; simp

/-- The layout's bits in a `JR` word are the layout's value, when it keeps to the mask (R89 (a)). -/
theorem jregPart_encJr {layout : Vector Word 64} {oreg : Reg6} (creg : Reg6) (cond : Cond4)
    (h : jregPart layout[oreg.toFin] = layout[oreg.toFin]) :
    jregPart (encJr layout creg cond oreg) = layout[oreg.toFin] := by
  rw [encJr_eq]
  generalize layout[oreg.toFin] = v at *
  refine BitVec.eq_of_getLsbD_eq fun i hi => ?_
  rw [← congrArg (fun x => BitVec.getLsbD x i) h]
  simp only [jregPart_getLsbD, jrWord_getLsbD, BitVec.getLsbD_extractLsb']
  grind

theorem Cfg.jregPart_layout {c : Cfg} (h : c.jregOk = true) (o : Fin 64) :
    jregPart c.jregBits[o] = c.jregBits[o] := by
  simp only [Cfg.jregOk, Bool.and_eq_true, List.all_eq_true] at h
  simpa using h.1 c.jregBits[o] (by simp)

theorem Cfg.layout_injective {c : Cfg} (h : c.jregOk = true) {o o' : Fin 64}
    (e : c.jregBits[o] = c.jregBits[o']) : o = o' := by
  simp only [Cfg.jregOk, Bool.and_eq_true, decide_eq_true_eq] at h
  have := (List.nodup_iff_injective_get.1 h.2) (a₁ := ⟨o.val, by simp⟩) (a₂ := ⟨o'.val, by simp⟩)
    (by simpa using e)
  simpa [Fin.ext_iff] using this

/-- `oregIn` inverts an allowed layout (R89 (b)). -/
theorem oregIn_layout {c : Cfg} (h : c.jregOk = true) (oreg : Reg6) :
    oregIn c.jregBits c.jregBits[oreg.toFin] = some oreg := by
  have found : (List.finRange 64).find? (fun o => c.jregBits[o] == c.jregBits[oreg.toFin]) =
      some oreg.toFin := by
    rw [List.find?_eq_some_iff_append]
    refine ⟨by simp, ?_⟩
    obtain ⟨as, bs, e⟩ := List.append_of_mem (List.mem_finRange oreg.toFin)
    refine ⟨as, bs, e, fun a ha => ?_⟩
    have nd : (as ++ oreg.toFin :: bs).Nodup := e ▸ List.nodup_finRange 64
    have ne : a ≠ oreg.toFin := fun he => by
      subst he
      exact (List.nodup_append.1 nd).2.2 _ ha _ (by simp) rfl
    simp only [Bool.not_eq_true', beq_eq_false_iff_ne, ne_eq]
    exact fun he => ne (Cfg.layout_injective h he)
  rw [oregIn, found]
  rfl

theorem layout_of_oregIn {layout : Vector Word 64} {bits : Word} {oreg : Reg6}
    (h : oregIn layout bits = some oreg) : layout[oreg.toFin] = bits := by
  simp only [oregIn, Option.map_eq_some_iff] at h
  obtain ⟨o, ho, rfl⟩ := h
  simpa using List.find?_some ho

end Sys2Proof
end

