-- ==== Sys2Proof/Laws/PerInstr.lean ====
section
/-! SUPPORT. Statements for all instructions, one lemma per constructor. `Encodes`: a micro-op is well
formed exactly when unit ENC answers a word for it, whatever the register-offset layout
(`spec/40_microop_encoder.md` R117, R118). -/

namespace Sys2Proof.Laws.Encodes

open Sys2Proof Sys2Proof.Machine

/-- Well formed exactly when the encoder answers a word, under every layout. -/
def Statement (i : Instr) : Prop :=
  ∀ layout : Vector Word 64, (∃ w, encode layout i = .ok w) ↔ i.wf = true

theorem alur (kind : AluKind) (srcA srcB dest : Reg6) (uf eoi adv : Bool) (size : Size3) :
    Statement (.alur kind srcA srcB dest uf eoi adv size) := fun layout => encode_ok_iff_wf layout _

theorem alui (kind : AluKind) (srcA : Reg6) (imm : Int) (dest : Reg6) (uf eoi adv : Bool)
    (size : Size3) : Statement (.alui kind srcA imm dest uf eoi adv size) :=
  fun layout => encode_ok_iff_wf layout _

theorem ldc (dest : Reg6) (imm : Int) : Statement (.ldc dest imm) :=
  fun layout => encode_ok_iff_wf layout _

theorem ji (creg : Reg6) (cond : Cond4) (off : Int) : Statement (.ji creg cond off) :=
  fun layout => encode_ok_iff_wf layout _

theorem jr (creg : Reg6) (cond : Cond4) (oreg : Reg6) : Statement (.jr creg cond oreg) :=
  fun layout => encode_ok_iff_wf layout _

theorem nop : Statement .nop := fun layout => encode_ok_iff_wf layout _

end Sys2Proof.Laws.Encodes
end

