-- ==== Sys2Proof/Tests/Slice0.lean ====
section
/-! SUPPORT. The model's own tests. Expected values come from the spec: the encodings of
`spec/30_encoding.md` and the vectors of `spec/95_test_vectors.md`, worked out by hand there. The second
half holds the witnesses: for each statement with hypotheses, a state and operands that meet them. -/

namespace Sys2Proof.Tests

open Sys2Proof Sys2Proof.Machine

/-! ### Helpers -/

/-- The sample configuration whose builders answer the given programs, under either revision. -/
def cfgWith (rows : List (SlotId × List Instr)) : Cfg :=
  { Cfg.sample with build := rows.map fun r => ⟨r.1, none, .anyRev (some ⟨r.2, ""⟩)⟩ }

/-- The state after reset under that configuration. -/
def start (rows : List (SlotId × List Instr)) : State := State.resetWith (cfgWith rows)

/-- A state in the middle of a pass, at slot number `n`, with the words below `k` marked written. -/
def midPass (n k : Nat) (rows : List (SlotId × List Instr)) : State :=
  { start rows with seq := n, wr := BitVec.ofNat 8192 (2 ^ k - 1) }

/-- Five copies of the all-zero ALU word's micro-op (section 2.9 of the vectors). -/
def fiveOps : List Instr := List.replicate 5 (.alur (.bin 0) 0 0 0 false false false 0)

/-- What a step or an operation answered. -/
def nextOf {σ φ ρ : Type} : Host.Outcome σ φ ρ → Option σ
  | .next s => some s
  | .fault _ => none
  | .refused _ => none

/-! ### Well-formedness: each check refuses a term -/

/-- R82, R118: 64 and -65 do not fit seven bits. -/
theorem test_wf_alui :
    (Instr.alui (.bin 0) 0 64 0 false false false 0).wf = false ∧
    (Instr.alui (.bin 0) 0 (-65) 0 false false false 0).wf = false ∧
    (Instr.alui (.bin 0) 0 (-64) 0 false false false 0).wf = true := by decide

/-- R83, R118: 8388608 does not fit 24 bits. -/
theorem test_wf_ldc :
    (Instr.ldc 5 8388608).wf = false ∧ (Instr.ldc 5 (-8388609)).wf = false ∧
    (Instr.ldc 5 8388607).wf = true := by decide

/-- R84, R118: 8192 does not fit 14 bits. -/
theorem test_wf_ji :
    (Instr.ji 7 9 8192).wf = false ∧ (Instr.ji 7 9 (-8193)).wf = false ∧
    (Instr.ji 7 9 8191).wf = true := by decide

/-- A program with one ill-formed micro-op is ill formed. -/
theorem test_wf_program : programWf [.nop, .ldc 5 8388608] = false := by decide

/-! ### Decoding: words written out from the encodings (R81 to R85, R97) -/

/-- R81: `0 1 100 000001 000010 000001 00110 1 1 00`: bit 31, adv, size, srcA, srcB, dest, kind, uf, eoi,
tag (vector S6). -/
theorem test_decode_alur :
    decodeTableWord 32 0b01100000001000010000001001101100 = some (.alur (.bin 6) 1 2 1 true true true 4) := by
  rfl

/-- R82: `1 1 101 100001 111111 100010 01001 1 1 01`, immediate 1·111111 = -1 (section 2.2). -/
theorem test_decode_alui :
    decodeTableWord 32 0b11101100001111111100010010011101 =
      some (.alui (.bin 9) 33 (-1) 34 true true true 5) := by rfl

/-- R83: `00010010001101000 000101 1010110 10`, immediate 0x123456 (section 2.3). -/
theorem test_decode_ldc :
    decodeTableWord 32 0b00010010001101000000101101011010 = some (.ldc 5 1193046) := by rfl

/-- R84: `1 1001 000111 111111 000000 1111101 11`, offset -3 (section 2.4). -/
theorem test_decode_ji :
    decodeTableWord 32 0b11001000111111111000000111110111 = some (.ji 7 9 (-3)) := by rfl

/-- R85 with the layout of `CFG_ref`: `0 1001 000111 000000000000110 0111`, offset register 12
(section 2.5), for a decoder that is told the variant. -/
theorem test_decode_jr :
    decodeAs (oregIn Cfg.sample.jregBits) .jr 0b01001000111000000000000001100111#32 =
      .ok (.jr 7 9 12) := by rfl

/-- R97: the word 3. -/
theorem test_decode_nop : decodeTableWord 32 0x00000003 = some .nop := by rfl

/-- R96: bit 31 of a tag-00 word, kind 16, and fewer than four bytes are refused by name. -/
theorem test_decode_refusals :
    decodeAlur 0x80000000#32 = .error .bit31 ∧ decodeAlui 0x00000101#32 = .error .reservedKind ∧
    decodeJi 0x00000203#32 = .error .bits14to9 ∧
    decodeBytes (fun _ => none) [3#8, 0#8, 0#8] = .error .truncated := by
  exact ⟨rfl, rfl, rfl, rfl⟩

/-! ### Executing a micro-op: the vectors of sections 2.1 to 2.5 -/

/-- Section 2.1: load kind 30. -/
theorem test_alur (s : State) :
    exec (.alur .load 20 0 21 false false false 0) s = .next (s.pushWord 0x02802BE0#32) := by rfl

/-- Section 2.1: every field at its greatest value. -/
theorem test_alur_greatest (s : State) :
    exec (.alur .store 63 63 63 true true true 7) s = .next (s.pushWord 0x7FFFFFFC#32) := by rfl

/-- Section 2.2: the least immediate. -/
theorem test_alui_least (s : State) :
    exec (.alui (.bin 9) 33 (-64) 34 true true true 5) s = .next (s.pushWord 0xEC20449D#32) := by rfl

/-- Section 2.2: 64 is rejected with `EncodingRange{imm7, 64}`. -/
theorem test_alui_rejected (s : State) :
    exec (.alui (.bin 9) 33 64 34 true true true 5) s = .next
      (s.raise .encodingRange (order s.seq) (some s.ws.length) .imm7 64) := by rfl

/-- Section 2.3: -129, whose low seven bits and high 17 bits differ. -/
theorem test_ldc (s : State) : exec (.ldc 5 (-129)) s = .next (s.pushWord 0xFFFF0BFE#32) := by rfl

/-- Section 2.3: 8388608 is rejected with `EncodingRange{imm24, 8388608}`. -/
theorem test_ldc_rejected (s : State) : exec (.ldc 5 8388608) s = .next
    (s.raise .encodingRange (order s.seq) (some s.ws.length) .imm24 8388608) := by rfl

/-- Section 2.4: offset 128 is bit 15 of the word. -/
theorem test_ji (s : State) : exec (.ji 7 9 128) s = .next (s.pushWord 0x48E08003#32) := by rfl

/-- Section 2.4: -8193 is rejected with `EncodingRange{imm14, -8193}`. -/
theorem test_ji_rejected (s : State) : exec (.ji 7 9 (-8193)) s = .next
    (s.raise .encodingRange (order s.seq) (some s.ws.length) .imm14 (-8193)) := by rfl

/-- Section 2.5, with the layout of `CFG_ref`. -/
theorem test_jr : (nextOf (exec (.jr 7 9 12) (start []))).map State.ws = some [0x48E00067#32] := by rfl

/-- S1: the canonical no-operation. -/
theorem test_nop (s : State) : exec .nop s = .next (s.pushWord 0x00000003#32) := by rfl

/-! ### Configurations: R6 -/

/-- R33, R61: registers without an index, and a program for a service slot that is not occupied, are not
of this hardware. -/
theorem test_cfg_refused : { Cfg.sample with regIndex := [] }.wf = false ∧
    { Cfg.sample with aluCode := [] }.wf = false ∧ (cfgWith [(.svc 8, [.nop])]).wf = false ∧
    (cfgWith [(.svc 7, [.nop])]).wf = true := by decide

/-! ### The descriptor ROM: section 2.6 -/

theorem test_rom_entries :
    dtLookup (start []) 6 = some ⟨6, some (.bin 6), true, false, true⟩ ∧
    romEntry (dtLookup (start []) 6) = 0x235#10 ∧ romEntry (dtLookup (start []) 10) = 0x2F1#10 ∧
    romEntry (dtLookup (start []) 31) = 0x000#10 ∧
    romEntry (some ⟨5, none, false, false, false⟩) = 0x300#10 := by decide

/-! ### The plan: section 2.7 -/

theorem test_plan :
    order 63 = some (.ri 31) ∧ order 66 = some (.svc 0) ∧ order 252 = some (.mi 5 10) ∧
    order 593 = some (.rm 7 31) ∧ order 868 = some (.misc 2) ∧ order 881 = some (.misc 15) ∧
    order 882 = none ∧
    base Cfg.sample (.mi 5 10) = 2384 ∧ base Cfg.sample (.rm 7 31) = 5112 ∧
    base Cfg.sample (.mr 7 31) = 7160 ∧ base Cfg.sample (.misc 15) = 8160 := by decide

/-- Section 2.8: the bytes of a word. -/
theorem test_bytes : wordBytes 0x6021026C#32 = [0x6C#8, 0x02#8, 0x21#8, 0x60#8] := by decide

/-! ### One step: sections 2.9 and 3.1 -/

/-- Program A at the slot `RR(6)`: its word at 24, then NOP. -/
theorem test_step_program_a :
    (nextOf (step (midPass 6 24 [(.rr 6, [.alur (.bin 6) 1 2 1 true true true 4])]))).map
      (fun t => (t.seq, t.img)) = some (7,
        [(96, 0x6C#8), (97, 0x02#8), (98, 0x21#8), (99, 0x60#8), (100, 3#8), (101, 0#8), (102, 0#8),
         (103, 0#8), (104, 3#8), (105, 0#8), (106, 0#8), (107, 0#8), (108, 3#8), (109, 0#8), (110, 0#8),
         (111, 0#8)]) := by decide +kernel

/-- Five micro-ops for `RR(3)`: `LayoutMismatch`, length 5; SEQ stays 3. -/
theorem test_step_too_long :
    (nextOf (step (midPass 3 12 [(.rr 3, fiveOps)]))).map
      (fun t => (t.seq, t.abort, t.abortRec.cause, t.abortRec.slot, t.abortRec.field, t.abortRec.value)) =
      some (3, true, .layoutMismatch, .rr 3, .length, 5) := by decide +kernel

/-- Six micro-ops, the last out of range: the length check comes first. -/
theorem test_step_length_first :
    (nextOf (step (midPass 3 12 [(.rr 3, fiveOps ++ [.ldc 0 8388608])]))).map
      (fun t => (t.abortRec.cause, t.abortRec.value)) = some (.layoutMismatch, 6) := by decide +kernel

/-- The first bad micro-op of `MI(0,0)` wins: `op_index` 2, `imm14`, 9000. -/
theorem test_step_first_bad :
    (nextOf (step (midPass 82 1024 [(.mi 0 0, [.alur (.bin 0) 0 0 0 false false false 0, .ldc 0 5,
        .ji 0 0 9000, .alui (.bin 0) 0 99 0 false false false 0])]))).map State.abortRec =
      some ⟨.encodingRange, .mi 0 0, 2, .imm14, 9000⟩ := by decide +kernel

/-- The instruction of a table word, placed at reset, is what the first step runs. -/
theorem test_step_placed_word :
    (nextOf (step (State.reset.withFetchWord 32 0x12340B5A))).map
      (fun t => (t.seq, t.img.take 4)) =
      some (1, [(0, 0x5A#8), (1, 0x0B#8), (2, 0x34#8), (3, 0x12#8)]) := by decide +kernel

/-! ### Witnesses: states and operands that meet the hypotheses of the statements

Each theorem names the statement it serves. -/

theorem cfgWith_wf (rows : List (SlotId × List Instr))
    (h : rows.all (fun r => Cfg.sample.occupied r.1) = true) : (cfgWith rows).wf = true := by
  obtain ⟨h1, h2, h3, h4, h5, -, -⟩ := (Cfg.wf_iff _).1 Cfg.sample_wf
  refine (Cfg.wf_iff _).2 ⟨h1, h2, h3, h4, h5, ?_, ?_⟩
  · simp [cfgWith, Cfg.buildOk]
  · refine List.all_eq_true.2 fun e he => ?_
    obtain ⟨r, hr, rfl⟩ := List.mem_map.1 he
    exact Bool.or_eq_true_iff.2 (.inl (List.all_eq_true.1 h r hr))

theorem start_inv (rows : List (SlotId × List Instr))
    (h : rows.all (fun r => Cfg.sample.occupied r.1) = true) : (start rows).Inv where
  cfg_wf := cfgWith_wf rows h
  rom_init := rfl
  img_wf := rfl
  written_below := by
    intro a _
    show BitVec.getLsbD 0#8192 a = decide (a < 0)
    simp
  value_iff_written := by
    intro b
    show false = (decide _ && BitVec.getLsbD 0#8192 (b / 4))
    simp
  seq_le := Nat.zero_le _
  done_iff := ⟨fun h => (by cases h), fun h => (by cases h)⟩
  not_both := fun h => (by cases h.1)
  no_words := rfl

/-- AluiPushesItsWordOrAborts, ImmediatesReassemble: both ends of the range and the values beyond. -/
theorem witness_alui_range : ((-64 : Int) ≤ -64 ∧ (-64 : Int) ≤ 63) ∧ ((-64 : Int) ≤ 63 ∧ (63 : Int) ≤ 63) ∧
    ((-65 : Int) < -64 ∨ (63 : Int) < -65) ∧ ((64 : Int) < -64 ∨ (63 : Int) < 64) := by decide

/-- LdcPushesItsWordOrAborts, ImmediatesReassemble. -/
theorem witness_ldc_range : ((-8388608 : Int) ≤ -8388608 ∧ (-8388608 : Int) ≤ 8388607) ∧
    ((-8388608 : Int) ≤ 8388607 ∧ (8388607 : Int) ≤ 8388607) ∧
    ((-8388609 : Int) < -8388608 ∨ (8388607 : Int) < -8388609) ∧
    ((8388608 : Int) < -8388608 ∨ (8388607 : Int) < 8388608) := by decide

/-- JiPushesItsWordOrAborts, ImmediatesReassemble. -/
theorem witness_ji_range : ((-8192 : Int) ≤ -8192 ∧ (-8192 : Int) ≤ 8191) ∧
    ((-8192 : Int) ≤ 8191 ∧ (8191 : Int) ≤ 8191) ∧
    ((-8193 : Int) < -8192 ∨ (8191 : Int) < -8193) ∧ ((8192 : Int) < -8192 ∨ (8191 : Int) < 8192) := by
  decide

/-- JrPushesItsWord, DecodeAsInvertsEncode: the sample's layout is allowed. -/
theorem witness_jregOk : (start []).cfg.jregOk = true ∧ (Instr.jr 63 15 63).wf = true := by decide

/-- NopPushesTheNoOperationWord: the first and the last word of the image. -/
theorem witness_image_ends : 0 < imageWords ∧ 8191 < imageWords := by decide

/-- EncodingLeavesEverythingElse: a well-formed and an ill-formed micro-op, and a slot at SEQ. -/
theorem witness_frame : (Instr.ldc 0 8388607).wf = true ∧ (Instr.ldc 0 8388608).wf = false ∧
    order (start []).seq = some (.rr 0) := by decide

/-- EncodersAreInjective: two micro-ops of one variant with one word. -/
theorem witness_injective : Cfg.sample.jregOk = true ∧
    (Instr.jr 7 9 12).variant = (Instr.jr 7 9 12).variant ∧
    encode Cfg.sample.jregBits (.jr 7 9 12) = .ok 0x48E00067#32 := ⟨by decide, rfl, rfl⟩

/-- DecodeBytesInvertsEncode: a word that reads back as it was, and the one that reads as `NOP`. -/
theorem witness_decode_bytes :
    (Instr.ldc 5 1193046).variant ≠ .jr ∧
    encode Cfg.sample.jregBits (.ldc 5 1193046) = .ok 0x12340B5A#32 ∧
    (Instr.ji 0 0 0).variant ≠ .jr ∧ encode Cfg.sample.jregBits (.ji 0 0 0) = .ok nopWord := by
  exact ⟨by decide, rfl, by decide, rfl⟩

/-- Another allowed layout: the number of the offset register at bits 14:9. -/
def wideLayout : Cfg :=
  { Cfg.sample with jregBits := Vector.ofFn fun o => BitVec.ofNat 32 (512 * o.val) }

/-- DecodedWordsEncodeBack: words that the decoder of bare words reads, a `JR` among them. -/
theorem witness_decoded : Cfg.sample.jregOk = true ∧ wideLayout.jregOk = true ∧
    decodeWord (oregIn wideLayout.jregBits) 0x48E01803#32 = .ok (.jr 7 9 12) ∧
    decodeWord (oregIn Cfg.sample.jregBits) 0x48E00067#32 = .ok (.ji 7 9 25) ∧
    decodeWord (oregIn Cfg.sample.jregBits) 0x6021026C#32 =
      .ok (.alur (.bin 6) 1 2 1 true true true 4) := ⟨by decide, by decide, rfl, rfl, rfl⟩

/-- ReservedPatternsAreNeverEmittedAndRefused: a word of each kind, and a reserved pattern of each. -/
theorem witness_reserved :
    encode Cfg.sample.jregBits (.alur (.bin 6) 1 2 1 true true true 4) = .ok 0x6021026C#32 ∧
    field 0 2 0x6021026C#32 = 0b00#2 ∧
    encode Cfg.sample.jregBits (.alui (.bin 9) 33 (-1) 34 true true true 5) = .ok 0xEC3FC49D#32 ∧
    field 0 2 0xEC3FC49D#32 = 0b01#2 ∧ (Instr.ji 7 9 (-3)).variant = .ji ∧
    field 31 1 0x80000000#32 = 1#1 ∧ field 9 6 0x00000203#32 ≠ 0#6 ∧
    16 ≤ (field 4 5 0x00000100#32).toNat ∧ (field 4 5 0x000001D1#32).toNat ≤ 29 := by
  exact ⟨rfl, by decide, rfl, by decide, rfl, by decide, by decide, by decide, by decide⟩

/-- StepsKeepRomAndConfiguration, StepsKeepTheImageCanonical, EveryStepKeepsTheInvariant,
SeqCountsCompletedSteps, StatusFlagsAreSticky, RevisionIsSampledOnce (at SEQ = 0): a step that
completes, from a state that meets the invariant. -/
theorem witness_step : (start []).Inv ∧ (start []).img.wf = true ∧
    (nextOf (step (start []))).map (fun t => (t.seq, t.abort)) = some (1, false) :=
  ⟨start_inv [] rfl, rfl, by decide +kernel⟩

/-- RevisionIsSampledOnce (after the first step), SeqCountsCompletedSteps. -/
theorem witness_later_step : (midPass 6 24 []).seq ≠ 0 ∧
    (nextOf (step (midPass 6 24 []))).map (fun t => (t.seq, t.abort)) = some (7, false) :=
  ⟨by decide, by decide +kernel⟩

/-- StatusFlagsAreSticky: the step that sets DONE, and states with a flag set. -/
theorem witness_done_step :
    (nextOf (step (midPass 881 8160 []))).map (fun t => (t.seq, t.done, t.abort)) =
      some (882, true, false) ∧
    { start [] with done := true }.done = true ∧ { start [] with abort := true }.abort = true :=
  ⟨by decide +kernel, rfl, rfl⟩

/-- AbortIsPrecise: an abort in the middle of a pass, and one in FINISH (word 0 is not written). -/
theorem witness_abort :
    (nextOf (step (start [(.rr 0, fiveOps)]))).map (fun t => (t.abort, t.abortRec.slot)) =
      some (true, .rr 0) ∧
    (nextOf (step { start [] with seq := 881 })).map (fun t => (t.seq, t.abort, t.abortRec.field)) =
      some (881, true, .overlap) :=
  ⟨by decide +kernel, by decide +kernel⟩

/-- StepIsEnabledExactlyWhen, SeqCountsCompletedSteps: an enabled state, and states that are not. -/
theorem witness_enabled : (start []).cfg.stridesOk = true ∧ (start []).enabled = true ∧
    { start [] with seq := slotCount }.enabled = false ∧ { start [] with seq := slotCount }.seq = slotCount ∧
    { start [] with done := true }.enabled = false := by decide

/-- WindowsTileTheImage, SlotBasesFollowTheMap, SlotsLieInTheirRegions, EveryWordLiesInOneWindow: the
strides, neighbouring slots where two regions meet, and the last slot. -/
theorem witness_plan : Cfg.sample.stridesOk = true ∧ order 0 = some (.rr 0) ∧
    order 31 = some (.rr 31) ∧ order 32 = some (.ri 0) ∧ order 849 = some (.mr 7 31) ∧
    order 850 = some (.jc 0) ∧ order 881 = some (.misc 15) ∧ (order 882).isSome = false ∧
    base Cfg.sample (.rr 0) ≤ 0 ∧ 0 < base Cfg.sample (.rr 0) + window (.rr 0) ∧
    base Cfg.sample (.misc 15) ≤ 8191 ∧
    8191 < base Cfg.sample (.misc 15) + window (.misc 15) := by decide

/-- StepRunsTheDecodedInstruction: the builder answers one micro-op; a word that decodes. -/
theorem witness_single : (start [(.rr 0, [.ldc 5 1193046])]).abort = false ∧
    (start [(.rr 0, [.ldc 5 1193046])]).done = false ∧
    order (start [(.rr 0, [.ldc 5 1193046])]).seq = some (.rr 0) ∧
    programFor (start [(.rr 0, [.ldc 5 1193046])]) (.rr 0) = [.ldc 5 1193046] ∧
    decodeTableWord 32 0x12340B5A = some (.ldc 5 1193046) :=
  ⟨rfl, rfl, rfl, by decide, rfl⟩

/-- EncProgIsElementwise: a program that encodes, and one that fails at its second micro-op. -/
theorem witness_program :
    encodeProgram Cfg.sample.jregBits [.nop, .ldc 5 1193046] = .ok [0x3#32, 0x12340B5A#32] ∧
    encodeProgram Cfg.sample.jregBits [.nop, .ldc 5 8388608] = .error (⟨.imm24, 8388608⟩, 1) :=
  ⟨rfl, rfl⟩

/-- A full window for `RR(0)`. -/
def fourOps : List Instr := [.nop, .ldc 5 1193046, .ji 7 9 (-3), .jr 7 9 12]

/-- StepPlacesTheProgram: a full window and an empty one. -/
theorem witness_place :
    (start [(.rr 0, fourOps)]).Inv ∧ (start [(.rr 0, fourOps)]).abort = false ∧
    (start [(.rr 0, fourOps)]).done = false ∧
    order (start [(.rr 0, fourOps)]).seq = some (.rr 0) ∧
    programFor (start [(.rr 0, fourOps)]) (.rr 0) = fourOps ∧ fourOps.length ≤ window (.rr 0) ∧
    encodeProgram Cfg.sample.jregBits fourOps =
      .ok [0x3#32, 0x12340B5A#32, 0xC8FF81F7#32, 0x48E00067#32] ∧
    programFor (start []) (.rr 0) = [] :=
  ⟨start_inv _ rfl, rfl, rfl, rfl, by decide, by decide, rfl, by decide⟩

theorem sample_answers_nothing (slot : SlotId) (rev : Rev) (dt : DescriptorTable) :
    build (cfgWith []) slot rev dt = none := rfl

/-- UnassignedOpcodeGivesNops: the sample's opcode 0 is unassigned. -/
theorem witness_unassigned : (start []).Inv ∧ unassignedContract (start []).cfg ∧
    order (start []).seq = some (.rr 0) ∧ opcodeOfSlot (.rr 0) = some 0 ∧
    dtLookup (start []) 0 = none :=
  ⟨start_inv [] rfl, fun _ _ _ _ _ => rfl, rfl, rfl, by decide⟩

/-- TooLongProgramAborts: one micro-op more than the window holds. -/
theorem witness_too_long : (start [(.rr 0, fiveOps)]).abort = false ∧
    (start [(.rr 0, fiveOps)]).done = false ∧
    order (start [(.rr 0, fiveOps)]).seq = some (.rr 0) ∧
    window (.rr 0) + 1 = (programFor (start [(.rr 0, fiveOps)]) (.rr 0)).length := by decide

/-- FirstBadImmediateAborts: the third of four micro-ops. -/
theorem witness_first_bad :
    programFor (start [(.rr 0, [.nop, .ldc 0 5] ++ .ji 0 0 8192 :: [.nop])]) (.rr 0) =
      [.nop, .ldc 0 5] ++ .ji 0 0 8192 :: [.nop] ∧
    ([.nop, .ldc 0 5] ++ .ji 0 0 8192 :: [.nop] : List Instr).length ≤ window (.rr 0) ∧
    programWf [.nop, .ldc 0 5] = true ∧
    encode Cfg.sample.jregBits (.ji 0 0 8192) = .error ⟨.imm14, 8192⟩ :=
  ⟨by decide, by decide, by decide, rfl⟩

/-- OverlapAbortsTheStep: of the window of `RR(6)`, words 24 to 27, only word 26 is written, so the step
places two words before it finds the overlap; none of them is in the image after it. -/
theorem witness_overlap_above : { midPass 6 24 [] with wr := BitVec.twoPow 8192 26 }.written 26 = true ∧
    { midPass 6 24 [] with wr := BitVec.twoPow 8192 26 }.written 24 = false ∧
    { midPass 6 24 [] with wr := BitVec.twoPow 8192 26 }.written 25 = false ∧
    (nextOf (step { midPass 6 24 [] with wr := BitVec.twoPow 8192 26 })).map
      (fun t => (t.abortRec.value, t.img, t.wr == BitVec.twoPow 8192 26)) = some (26, [], true) := by
  decide +kernel

/-- OverlapAbortsTheStep: words 24 and 25 of the window of `RR(6)` are already written. -/
theorem witness_overlap : (midPass 6 26 []).cfg.stridesOk = true ∧ order (midPass 6 26 []).seq = some (.rr 6) ∧
    programFor (midPass 6 26 []) (.rr 6) = [] ∧ base (midPass 6 26 []).cfg (.rr 6) = 24 ∧
    (midPass 6 26 []).written 24 = true ∧
    (nextOf (step (midPass 6 26 []))).map (fun t => t.abortRec.value) = some 24 := by decide +kernel

/-- FinishChecksEveryWord: the last slot, with every earlier word written, and with word 8159 not. -/
theorem witness_finish : order (midPass 881 8160 []).seq = some (.misc 15) ∧
    (midPass 881 8160 []).seq + 1 = slotCount ∧ base (midPass 881 8160 []).cfg (.misc 15) = 8160 ∧
    (midPass 881 8159 []).written 8159 = false ∧
    (∀ b, 8160 ≤ b → b < imageWords → (midPass 881 8160 []).written b = false) ∧
    (∀ a, a < 8160 → (midPass 881 8160 []).written a = true) := by
  refine ⟨by decide, by decide, by decide, by decide +kernel, fun b h hb => ?_, fun a h => ?_⟩ <;>
    simp only [midPass, State.written, BitVec.getLsbD_ofNat, Nat.testBit_two_pow_sub_one]
  · simp; omega
  · simp; omega

/-- LabelsGoToTheLogAlone, EmptyResultGivesNops, UnoccupiedSlotsHaveNoProgram: an answer with a label, an
empty one, a state that is not enabled, and a slot number that is not occupied. -/
theorem witness_labels : (start [(.rr 0, fourOps)]).enabled = true ∧
    build (start [(.rr 0, fourOps)]).cfg (.rr 0) .narrow Cfg.sample.dtInit = some ⟨fourOps, ""⟩ ∧
    fourOps ≠ [] ∧ stepLabel (start [(.rr 0, fourOps)]) = some (.rr 0, "") ∧
    programFor (start [(.rr 0, [])]) (.rr 0) = [] ∧ stepLabel (start [(.rr 0, [])]) = none ∧
    stepLabel { start [(.rr 0, fourOps)] with done := true } = none ∧
    Cfg.sample.occupied (.svc 8) = false ∧ (start []).abort = false ∧
    order (start []).seq = some (.rr 0) := by decide

/-- OtherBuildersIgnoreTheRevision. -/
theorem witness_other_builders :
    (cfgWith [(.rr 0, fourOps)]).buildOk = true ∧ SlotId.mayReadRev (.rr 0) = false := by decide

/-- EveryPassEnds, ImageIsTheConcatenationOfTheWindows, OutcomeIgnoresAnUnreadRevision: a configuration
of this hardware whose builders answer nothing, and one whose builders answer a program. -/
theorem witness_pass : (cfgWith []).wf = true ∧ lengthContract (cfgWith []) ∧
    (∀ slot, encodeProgram (cfgWith []).jregBits
      (programOf (build (cfgWith []) slot (cfgWith []).rev (cfgWith []).dtInit)) = .ok []) ∧
    (∀ e, e ∈ (cfgWith [(.rr 0, fourOps)]).build →
      answerFor e.answer .narrow = answerFor e.answer .wide) ∧
    answerFor (.perRev (some ⟨fourOps, ""⟩) (some ⟨fourOps, ""⟩)) .narrow =
      answerFor (.perRev (some ⟨fourOps, ""⟩) (some ⟨fourOps, ""⟩)) .wide := by
  refine ⟨cfgWith_wf [] rfl, fun _ _ => Nat.zero_le _, fun _ => rfl, fun e he => ?_, rfl⟩
  obtain rfl := List.mem_singleton.1 he
  rfl

/-- WordsAreWrittenOnce: the words on both sides of the end of what is written. -/
theorem witness_written : (midPass 6 24 []).written 23 = true ∧
    (midPass 6 24 []).written 24 = false := by decide +kernel

/-- A state after DONE with one word of section 2.8 in its image. -/
def oneWordDone : State :=
  { start [] with img := Memory.setWord [] 8191 0xFFFFA9FE#32, done := true }

/-- TheImageIsLittleEndian: the last word of the image. -/
theorem witness_read : oneWordDone.done = true ∧ oneWordDone.abort = false ∧
    oneWordDone.img.getWord 8191 = some 0xFFFFA9FE#32 := by decide

/-- MemReadIsLittleEndian: four bytes across the last two words of an image. -/
def twoWordsDone : State :=
  { start [] with img := Memory.setWord (Memory.setWord [] 8191 0xFFFFA9FE#32) 8190 0x2280A809#32, done := true }

theorem witness_crossing : twoWordsDone.done = true ∧ twoWordsDone.abort = false ∧
    32762 + AccessSize.bytes .word ≤ imageBytes ∧
    (∀ i, i < 4 → twoWordsDone.img.get (32762 + i) = [0x80#8, 0x22#8, 0xFE#8, 0xA9#8][i]?) ∧
    nextOf (memRead twoWordsDone 32762 .word) = some 0xA9FE2280 ∧
    nextOf (memRead twoWordsDone 32763 .half) = some 0xFE22 := by decide

/-- Section 2.8: the bytes of the word, lowest first, and a half word. -/
theorem test_memRead : nextOf (memRead oneWordDone 32764 .byte) = some 0xFE ∧
    nextOf (memRead oneWordDone 32764 .half) = some 0xA9FE ∧
    nextOf (memRead oneWordDone 32764 .word) = some 0xFFFFA9FE ∧
    nextOf (memRead oneWordDone 32765 .word) = none := by decide

/-- NoReadBeforeDone: before DONE, and after an abort. -/
theorem witness_unreadable : (start []).done = false ∧
    { start [] with abort := true }.abort = true := by decide

/-- ConfigurationOnlyBetweenPasses: between passes, and in the middle of one. -/
theorem witness_configure : (start []).seq = 0 ∧ (midPass 6 24 []).seq ≠ 0 ∧
    (midPass 6 24 []).done = false ∧ (midPass 6 24 []).abort = false ∧
    { midPass 6 24 [] with abort := true }.abort = true ∧ oneWordDone.done = true :=
  ⟨rfl, by decide, rfl, rfl, rfl, rfl⟩

/-- The end of a pass: every byte 3 and every word written. -/
def finished : State :=
  { start [] with
    img := (List.range imageBytes).map fun b => (b, 3#8)
    wr := BitVec.allOnes 8192
    seq := slotCount
    done := true }

theorem get_map_range' (v : Byte) (b : Nat) : ∀ n k,
    Memory.get ((List.range' k n).map fun a => (a, v)) b =
      if k ≤ b ∧ b < k + n then some v else none := by
  intro n
  induction n with
  | zero => intro k; rw [if_neg (by omega)]; rfl
  | succ n ih =>
    intro k
    simp only [List.range'_succ, List.map_cons, Memory.get, ih]
    split_ifs <;> first | rfl | omega

theorem map_range_wf (v : Byte) (n : Nat) :
    Memory.wf ((List.range n).map fun a => (a, v)) = true :=
  decide_eq_true (List.pairwise_map.2 List.pairwise_lt_range)

/-- EmitGivesTheWholeImage: a state after DONE that meets the invariant. -/
theorem witness_finished : finished.Inv ∧ finished.done = true := by
  have hw : ∀ a, a < 8192 → finished.written a = true := fun a h => by
    show (BitVec.allOnes 8192).getLsbD a = true
    rw [BitVec.getLsbD_allOnes, decide_eq_true h]
  refine ⟨⟨cfgWith_wf [] rfl, rfl, ?_, ?_, ?_, Nat.le_refl _, ⟨fun _ => rfl, fun _ => rfl⟩,
    fun h => (by cases h.2), rfl⟩, rfl⟩
  · simp only [finished]
    exact map_range_wf 3#8 imageBytes
  · intro a ha
    have hs : slotStart finished.cfg finished.seq = imageWords := by
      have h : order 882 = none := by decide
      simp only [slotStart, show finished.seq = 882 from rfl, h]
    rw [hs, hw a ha, decide_eq_true ha]
  · intro b
    have hg : finished.img.get b = if 0 ≤ b ∧ b < 0 + imageBytes then some 3#8 else none := by
      simp only [finished, List.range_eq_range']
      exact get_map_range' 3#8 b imageBytes 0
    rw [hg]
    by_cases h : b < imageBytes
    · rw [if_pos ⟨Nat.zero_le _, by omega⟩, hw (b / 4) (by simp only [imageBytes] at h; omega)]
      simp [h]
    · rw [if_neg (by omega)]
      simp [h]

end Sys2Proof.Tests
end

/-! Proofs about the state (`spec/10_state.md` R20 to R26, R280): the values after reset, and what every
step keeps. A step that answers a next state either raises an abort from the state before it or completes
its slot (`step_raises_or_completes`); each statement below is those two cases. -/

namespace Sys2Proof.Machine

/-! ### What the states after a write and after reset hold -/

/-- A word write gives every byte of its range a value and leaves what other bytes have. -/
theorem Wrote.isSome_get {a : Nat} {ws : List Word} {s t : State} (h : Wrote a ws s t) (b : Nat) :
    (t.img.get b).isSome =
      ((s.img.get b).isSome || decide (a ≤ b / 4 ∧ b / 4 < a + ws.length)) := by
  rw [h.get]
  split
  · next hr =>
    rw [decide_eq_true hr, Bool.or_true, Option.isSome_map, List.getElem?_eq_getElem (by omega)]
    rfl
  · next hr => rw [decide_eq_false hr, Bool.or_false]

@[simp] theorem written_resetWith (c : Cfg) (a : Nat) : (State.resetWith c).written a = false :=
  BitVec.getLsbD_zero

theorem slotStart_zero {c : Cfg} (h : c.stridesOk = true) : slotStart c 0 = 0 := by
  simp [slotStart_eq h]

/-- The state after reset under a configuration of this hardware is one of the pass. -/
theorem resetWith_inv {c : Cfg} (h : c.wf = true) : (State.resetWith c).Inv where
  cfg_wf := h
  rom_init := rfl
  img_wf := rfl
  written_below a _ := by
    have h0 : slotStart (State.resetWith c).cfg (State.resetWith c).seq = 0 :=
      slotStart_zero (Cfg.stridesOk_of_wf h)
    simp [h0]
  value_iff_written b := by
    have hb : (State.resetWith c).img.get b = none := rfl
    simp [hb]
  seq_le := Nat.zero_le _
  done_iff := by simp [State.resetWith]
  not_both := by simp [State.resetWith]
  no_words := rfl

/-! ### What a step can do -/

/-- The step of the slot went through without an abort (R164): what changed from `s` to `t`, and what
stayed. -/
structure Completes (slot : SlotId) (s t : State) : Prop where
  written : ∀ a, t.written a =
    (s.written a || decide (base s.cfg slot ≤ a ∧ a < base s.cfg slot + window slot))
  isSome_get : ∀ b, (t.img.get b).isSome = ((s.img.get b).isSome ||
    decide (base s.cfg slot ≤ b / 4 ∧ b / 4 < base s.cfg slot + window slot))
  img_wf : s.img.wf = true → t.img.wf = true
  seq : t.seq = s.seq + 1
  done : t.done = decide (s.seq + 1 = slotCount)
  all_written : t.done = true → allWritten t.wr = true
  abort : t.abort = false
  rom : t.rom = s.rom
  cfg : t.cfg = s.cfg
  ws : t.ws = []

/-- A placed slot whose sequence pointer has moved on is completed, with `DONE` set at the last one. -/
theorem completes_of_place {s u : State} {slot : SlotId} {ws : List Word} {d : Bool}
    (ha : s.abort = false) (hl : ws.length ≤ window slot)
    (hp : place slot ws (s.withWords ws) = .ok u) (hd : d = decide (s.seq + 1 = slotCount))
    (hall : d = true → allWritten u.wr = true) :
    Completes slot s { u.advance with done := d } := by
  have hw := writeWords_wrote hp
  have hlen := windowWords_length hl
  exact {
    written := fun a => hlen ▸ hw.written a
    isSome_get := fun b => hlen ▸ hw.isSome_get b
    img_wf := hw.wf
    seq := by rw [hw.rest]; rfl
    done := hd
    all_written := hall
    abort := by rw [hw.rest]; exact ha
    rom := by rw [hw.rest]; rfl
    cfg := by rw [hw.rest]; rfl
    ws := rfl }

/-- A step that answers a next state was enabled at some slot, and raises an abort from the state before
it (R255) or completes the slot (R164). -/
theorem step_raises_or_completes {s t : State} (h : step s = .next t) :
    ∃ slot, order s.seq = some slot ∧ s.abort = false ∧ s.done = false ∧
      ((∃ c k o f v, t = s.raise c k o f v) ∨ Completes slot s t) := by
  obtain ⟨slot, ho, ha, hd, hc⟩ := step_cases h
  refine ⟨slot, ho, ha, hd, ?_⟩
  obtain ⟨-, rfl⟩ | ⟨-, e, k, -, rfl⟩ | ⟨hl, ws, he, hc⟩ := hc
  · exact .inl ⟨_, _, _, _, _, rfl⟩
  · exact .inl ⟨_, _, _, _, _, rfl⟩
  have hlen : ws.length ≤ window slot := encodeProgram_length he ▸ hl
  obtain ⟨a, -, rfl⟩ | ⟨u, hp, ⟨hs, rfl⟩ | ⟨hs, hall, rfl⟩ | ⟨-, -, rfl⟩⟩ := hc
  · exact .inl ⟨_, _, _, _, _, rfl⟩
  · have hdone : u.done = false := by rw [(writeWords_wrote hp).rest]; exact hd
    exact .inr (completes_of_place (d := u.done) ha hlen hp (by simp [hdone, hs]) (by simp [hdone]))
  · exact .inr (completes_of_place ha hlen hp (by simp [hs]) fun _ => hall)
  · exact .inl ⟨_, _, _, _, _, rfl⟩

/-! ### The invariant of the pass -/

/-- An abort raised before the pass is over keeps the invariant: it writes nothing the invariant names
but `ABORT` (R255). -/
theorem raise_inv {s : State} (h : s.Inv) (hd : s.done = false) (c : AbortCause) (k : Option SlotId)
    (o : Option Nat) (f : AbortField) (v : Int) : (s.raise c k o f v).Inv where
  cfg_wf := h.cfg_wf
  rom_init := h.rom_init
  img_wf := h.img_wf
  written_below := h.written_below
  value_iff_written := h.value_iff_written
  seq_le := h.seq_le
  done_iff := h.done_iff
  not_both := by simp [hd]
  no_words := rfl

/-- When the words below a slot are the written ones, completing the slot writes exactly the words below
the next slot (R69: each window ends where the next one begins). -/
theorem Completes.written_below {s t : State} {slot : SlotId} (hc : Completes slot s t) (h : s.Inv)
    (ho : order s.seq = some slot) (a : Nat) (ha : a < imageWords) :
    t.written a = decide (a < slotStart t.cfg t.seq) := by
  have hnext := slotStart_succ (Cfg.stridesOk_of_wf h.cfg_wf) ho
  have hbase := slotStart_of_order ho s.cfg
  rw [hc.written, h.written_below a ha, hc.cfg, hc.seq, hnext, hbase, ← Bool.decide_or]
  exact decide_eq_decide.2 (by omega)

/-- Completing a slot keeps the agreement of the bytes that have a value with the written flags
(R20, R21): both grow by the words of the window. -/
theorem Completes.value_iff_written {s t : State} {slot : SlotId} (hc : Completes slot s t) (h : s.Inv)
    (b : Nat) : (t.img.get b).isSome = (decide (b < imageBytes) && t.written (b / 4)) := by
  have hin : base s.cfg slot ≤ b / 4 ∧ b / 4 < base s.cfg slot + window slot → b < imageBytes := by
    intro hr
    have hlt : b / 4 < imageWords :=
      written_lt (s := t) (by rw [hc.written, decide_eq_true hr, Bool.or_true])
    simp only [imageWords, imageBytes] at hlt ⊢
    omega
  rw [hc.isSome_get, hc.written, h.value_iff_written]
  by_cases hb : b < imageBytes
  · simp only [hb, decide_true, Bool.true_and]
  · simp only [hb, mt hin hb, decide_false, Bool.false_and, Bool.or_false]

/-- Completing the slot at SEQ keeps the invariant. -/
theorem completes_inv {s t : State} {slot : SlotId} (h : s.Inv) (ho : order s.seq = some slot)
    (hc : Completes slot s t) : t.Inv where
  cfg_wf := hc.cfg ▸ h.cfg_wf
  rom_init := by rw [hc.rom, hc.cfg, h.rom_init]
  img_wf := hc.img_wf h.img_wf
  written_below := hc.written_below h ho
  value_iff_written := hc.value_iff_written h
  seq_le := hc.seq ▸ lt_of_order ho
  done_iff := by rw [hc.done, hc.seq, decide_eq_true_iff]
  not_both := by simp [hc.abort]
  no_words := hc.ws

/-- Settles O37: a step raises an abort or completes its slot, and both keep the invariant. -/
theorem everyStepKeepsTheInvariant : Obligations.EveryStepKeepsTheInvariant := by
  intro s t hs h
  obtain ⟨slot, ho, -, hd, ⟨c, k, o, f, v, rfl⟩ | hc⟩ := step_raises_or_completes h
  · exact raise_inv hs hd c k o f v
  · exact completes_inv hs ho hc

/-! ### SEQ, the status flags and the image -/

/-- Settles O33: an abort keeps SEQ, a completed slot adds 1, and slot numbers end below 882. -/
theorem seqCountsCompletedSteps : Obligations.SeqCountsCompletedSteps := by
  refine ⟨rfl, fun s t h => ?_, fun s t hs h => ?_⟩
  · obtain ⟨slot, ho, -, -, ⟨c, k, o, f, v, rfl⟩ | hc⟩ := step_raises_or_completes h
    · have hlt := lt_of_order ho
      exact ⟨by simp, hlt, hlt.le⟩
    · have hlt := lt_of_order ho
      exact ⟨by simp [hc.abort, hc.seq], hlt, hc.seq ▸ hlt⟩
  · obtain ⟨slot, ho, -⟩ := step_raises_or_completes h
    exact (lt_of_order ho).ne hs

/-- Settles O34: a step begins with both flags 0; an abort sets ABORT alone, and a completed slot sets
DONE only at 882 with every word written. -/
theorem statusFlagsAreSticky : Obligations.StatusFlagsAreSticky := by
  refine ⟨⟨rfl, rfl⟩, fun s t h => ?_, fun s t hs h => ?_, fun s => ⟨rfl, rfl⟩⟩
  · obtain ⟨slot, -, -, hd, ⟨c, k, o, f, v, rfl⟩ | hc⟩ := step_raises_or_completes h
    · simp [hd]
    · refine ⟨by simp [hc.abort], fun ht => ⟨?_, (allWritten_iff t.wr).1 (hc.all_written ht)⟩⟩
      rw [hc.seq]
      exact of_decide_eq_true (hc.done ▸ ht)
  · obtain ⟨slot, -, ha, hd, -⟩ := step_raises_or_completes h
    simp [ha, hd] at hs

/-- Settles O39: an abort leaves the image, and the word writes of a completed slot keep its form. -/
theorem stepsKeepTheImageCanonical : Obligations.StepsKeepTheImageCanonical := by
  intro s t hs h
  obtain ⟨slot, -, -, -, ⟨c, k, o, f, v, rfl⟩ | hc⟩ := step_raises_or_completes h
  · exact hs
  · exact hc.img_wf hs

/-! ### The state after reset -/

/-- Settles O38: the host's configuration is one of this hardware too. -/
theorem resetMeetsTheInvariant : Obligations.ResetMeetsTheInvariant :=
  ⟨resetWith_inv Config.host.wf, fun _ h => resetWith_inv h⟩

/-- Settles O40: the fields of the state after reset; a reset begins a pass at SEQ 0, where the revision
is the host's (R172). -/
theorem resetValues : Obligations.ResetValues :=
  ⟨Memory.get_nil, written_resetWith _, rfl, rfl, rfl, rfl, fun s =>
    ⟨State.hostReset_rom s, by rw [State.hostReset_cfg], by simp [revOf]⟩⟩

end Sys2Proof.Machine

/-! Proofs about the plan and the image (`spec/20_memory.md` R50 to R62, R69): the windows tile the image,
words are written once and stored little-endian, and the image is read after DONE alone. -/

namespace Sys2Proof.Machine

/-! ### The windows tile the image (R58 to R62, R69) -/

theorem slotStart_mono {c : Cfg} (h : c.stridesOk = true) : Monotone (slotStart c) := by
  refine monotone_nat_of_le_succ fun n => ?_
  cases ho : order n with
  | some slot => exact slotStart_succ h ho ▸ Nat.le_add_right _ _
  | none =>
    have hbeyond := (order_eq_none_iff n).1 ho
    simp [slotStart, ho, order_beyond (show 882 ≤ n + 1 by omega)]

/-- A window ends where the next slot number begins. -/
theorem base_add_window {c : Cfg} (h : c.stridesOk = true) {n : Nat} {slot : SlotId}
    (ho : order n = some slot) : base c slot + window slot = slotStart c (n + 1) := by
  rw [slotStart_succ h ho, slotStart_of_order ho]

/-- A word below the start of a slot number lies in the window of an earlier one. -/
theorem exists_window_of_lt_slotStart {c : Cfg} (h : c.stridesOk = true) {a n : Nat}
    (hn : n ≤ slotCount) (ha : a < slotStart c n) :
    ∃ m slot, order m = some slot ∧ base c slot ≤ a ∧ a < base c slot + window slot := by
  induction n with
  | zero => simp [slotStart_zero h] at ha
  | succ n ih =>
    by_cases hlt : a < slotStart c n
    · exact ih (by omega) hlt
    · obtain ⟨slot, ho⟩ := Option.isSome_iff_exists.1 ((order_isSome_iff n).2 hn)
      rw [slotStart_of_order ho] at hlt
      exact ⟨n, slot, ho, by omega, base_add_window h ho ▸ ha⟩

/-- The window of a smaller slot number ends at or before the base of a greater one. -/
theorem window_end_le_base {c : Cfg} (h : c.stridesOk = true) {n m : Nat} {slot slot' : SlotId}
    (ho : order n = some slot) (ho' : order m = some slot') (hlt : n < m) :
    base c slot + window slot ≤ base c slot' := by
  rw [base_add_window h ho, ← slotStart_of_order ho' c]
  exact slotStart_mono h hlt

/-- Settles O20: a word lies in some window below the end of the image, and windows of different numbers
are disjoint. -/
theorem everyWordLiesInOneWindow : Obligations.EveryWordLiesInOneWindow := by
  intro c a h ha
  have hend : slotStart c slotCount = imageWords := by simp [slotStart, order_beyond]
  obtain ⟨n, slot, ho, hlo, hhi⟩ := exists_window_of_lt_slotStart h le_rfl (hend ▸ ha)
  refine ⟨n, slot, ho, hlo, hhi, fun m slot' ho' hlo' hhi' => ?_⟩
  rcases lt_trichotomy m n with hlt | rfl | hlt
  · have := window_end_le_base h ho' ho hlt
    omega
  · rfl
  · have := window_end_le_base h ho ho' hlt
    omega

/-- Settles O22: the row of each region (R58), and the slots of the region inside it. -/
theorem slotsLieInTheirRegions : Obligations.SlotsLieInTheirRegions := by
  intro c slot h
  obtain ⟨hm, ho⟩ := Cfg.strides h
  simp only [byteOffset]
  cases slot with
  | rr k => exact ⟨⟨.registerRegister, 0, 511⟩, by decide, rfl, by simp only [base, window]; omega⟩
  | ri k => exact ⟨⟨.registerImmediate, 512, 1023⟩, by decide, rfl, by simp only [base, window]; omega⟩
  | crr => exact ⟨⟨.controlRead, 1024, 1535⟩, by decide, rfl, by simp only [base, window]; omega⟩
  | crw => exact ⟨⟨.controlWrite, 1536, 2047⟩, by decide, rfl, by simp only [base, window]; omega⟩
  | svc k => exact ⟨⟨.services, 2048, 4095⟩, by decide, rfl, by simp only [base, window]; omega⟩
  | mi m k =>
    exact ⟨⟨.memoryImmediate, 4096, 12287⟩, by decide, rfl, by simp only [base, window, hm, ho]; omega⟩
  | rm m k =>
    exact ⟨⟨.registerMemory, 12288, 20479⟩, by decide, rfl, by simp only [base, window, hm, ho]; omega⟩
  | mr m k =>
    exact ⟨⟨.memoryRegister, 20480, 28671⟩, by decide, rfl, by simp only [base, window, hm, ho]; omega⟩
  | jc k => exact ⟨⟨.jumpCall, 28672, 30719⟩, by decide, rfl, by simp only [base, window]; omega⟩
  | misc k => exact ⟨⟨.miscellaneous, 30720, 32767⟩, by decide, rfl, by simp only [base, window]; omega⟩

/-- Settles O21: the bases of R162 with the strides of R60. -/
theorem slotBasesFollowTheMap : Obligations.SlotBasesFollowTheMap := by
  intro c m k j h
  obtain ⟨hm, ho⟩ := Cfg.strides h
  simp only [base, byteOffset, hm, ho, true_and, and_true]
  omega

/-! ### Words are written once (R53) -/

theorem wordWrite_of_written {s : State} {a : Nat} (h : s.written a = true) (w : Word) :
    wordWrite a w s = .error (.overlap a) :=
  wordWrite_error_iff.2 (.inr ⟨written_lt h, h, rfl⟩)

theorem wordWrite_of_not_written {s : State} {a : Nat} (ha : a < imageWords)
    (h : s.written a = false) (w : Word) : wordWrite a w s = .ok (s.putWord a w) :=
  wordWrite_ok_iff.2 ⟨ha, h, rfl⟩

/-- Settles O42: a written word refuses the write; any other is stored and marked, which refuses the
next write of it. -/
theorem wordsAreWrittenOnce : Obligations.WordsAreWrittenOnce := by
  intro s a w ha
  refine ⟨fun h => wordWrite_of_written h w, fun h => ?_⟩
  have hmark := written_putWord ha w s
  refine ⟨s.putWord a w, wordWrite_of_not_written ha h w, Memory.getWord_setWord_same _ _ _, hmark,
    fun b hb => Memory.get_setWord_of_ne hb, fun w' => wordWrite_of_written ?_ w'⟩
  rw [hmark, decide_eq_true rfl, Bool.or_true]

/-- A run of word writes stops at the first written word of its range. -/
theorem writeWords_overlap {start a : Nat} {ws : List Word} {s : State} (hlo : start ≤ a)
    (hhi : a < start + ws.length) (hw : s.written a = true)
    (hfirst : ∀ b, start ≤ b → b < a → s.written b = false) :
    writeWords start ws s = .error (.overlap a) := by
  induction ws generalizing start s with
  | nil => simp only [List.length_nil] at hhi; omega
  | cons w ws ih =>
    simp only [List.length_cons] at hhi
    rcases hlo.eq_or_lt with rfl | hlt
    · simp only [writeWords, wordWrite_of_written hw]
    · have hstart : start < imageWords := hlt.trans (written_lt hw)
      simp only [writeWords, wordWrite_of_not_written hstart (hfirst start le_rfl hlt)]
      refine ih hlt (by omega) ?_ fun b hb hba => ?_
      · rw [written_putWord hstart, hw, Bool.true_or]
      · rw [written_putWord hstart, hfirst b (by omega) hba, decide_eq_false (by omega), Bool.or_false]

/-- A step whose program fits and encodes is the end of the step with the program's words (R164). -/
theorem step_eq_completeSlot {s : State} {slot : SlotId} {ws : List Word} (ha : s.abort = false)
    (hd : s.done = false) (ho : order s.seq = some slot) (hl : (programFor s slot).length ≤ window slot)
    (he : encodeProgram s.cfg.jregBits (programFor s slot) = .ok ws) :
    step s = completeSlot s slot (s.withWords ws) := by
  simp [step, asmStep, ha, hd, ho, asmSlot, hl.not_gt, encProg_start _ _ ha, he]

/-- Settles O29: PLACE stops at the first written word of the window, and the raise keeps the state before
the step. -/
theorem overlapAbortsTheStep : Obligations.OverlapAbortsTheStep := by
  intro s slot ws a _ ha hd ho hl he hlo hhi hw hfirst
  have hlen : (windowWords (window slot) ws).length = window slot :=
    windowWords_length (encodeProgram_length he ▸ hl)
  have hplace : place slot ws (s.withWords ws) = .error (.overlap a) :=
    writeWords_overlap hlo (hlen.symm ▸ hhi) hw hfirst
  refine ⟨s.raise .layoutMismatch (some slot) none .overlap a, ?_, ?_, rfl⟩
  · simp only [step_eq_completeSlot ha hd ho hl he, completeSlot, State.withWords_ws, hplace]
  · simp [abortedFrom, sameButEncoding]

/-! ### Little-endian words and reads (R52, R54) -/

/-- Byte `i` of a stored word is the digit `i` of its value in base 256 (R52). -/
theorem wordByte_eq (w : Word) (i : Nat) : wordByte w i = BitVec.ofNat 8 (w.toNat / 256 ^ i) := by
  simp only [wordByte, BitVec.extractLsb', Nat.shiftRight_eq_div_pow, pow_mul]
  rfl

theorem wordByte_toNat (w : Word) (i : Nat) : (wordByte w i).toNat = w.toNat / 256 ^ i % 256 := by
  rw [wordByte_eq, BitVec.toNat_ofNat]

theorem littleEndian_wordBytes (w : Word) : littleEndian (wordBytes w) = w.toNat := by
  have hlt := w.isLt
  simp only [wordBytes, littleEndian, wordByte_toNat]
  omega

theorem wordOfBytes_toNat (b0 b1 b2 b3 : Byte) :
    (wordOfBytes b0 b1 b2 b3).toNat = littleEndian [b0, b1, b2, b3] := by
  show (b3 ++ b2 ++ b1 ++ b0).toNat = _
  simp only [toNat_append_eq, littleEndian]
  omega

/-- The bytes of the word of four bytes are those bytes. -/
theorem wordBytes_wordOfBytes (b0 b1 b2 b3 : Byte) :
    wordBytes (wordOfBytes b0 b1 b2 b3) = [b0, b1, b2, b3] := by
  have h0 := b0.isLt
  have h1 := b1.isLt
  have h2 := b2.isLt
  have h3 := b3.isLt
  simp only [wordBytes, List.cons.injEq, and_true, ← BitVec.toNat_inj, wordByte_toNat,
    wordOfBytes_toNat, littleEndian]
  omega

theorem wordBytes_getElem? {i : Nat} (hi : i < 4) (w : Word) :
    (wordBytes w)[i]? = some (wordByte w i) := by
  interval_cases i <;> rfl

/-- The bytes of the image at a word that has a value are the bytes of the word (R52). -/
theorem Memory.get_of_getWord {m : Memory} {a i : Nat} {w : Word} (h : m.getWord a = some w)
    (hi : i < 4) : m.get (4 * a + i) = some (wordByte w i) := by
  rw [← wordBytes_getElem? hi]
  simp only [Memory.getWord] at h
  split at h
  · next b0 b1 b2 b3 h0 h1 h2 h3 =>
    cases h
    rw [wordBytes_wordOfBytes]
    interval_cases i
    exacts [h0, h1, h2, h3]
  · cases h

theorem Memory.getBytes_of_get {m : Memory} {b : Nat} {bytes : List Byte}
    (h : ∀ i, i < bytes.length → m.get (b + i) = bytes[i]?) :
    m.getBytes b bytes.length = some bytes := by
  induction bytes generalizing b with
  | nil => rfl
  | cons v vs ih =>
    have hv : m.get b = some v := h 0 (Nat.succ_pos _)
    have hvs : m.getBytes (b + 1) vs.length = some vs :=
      ih fun i hi => by simpa [Nat.add_assoc, Nat.add_comm 1 i] using h (i + 1) (Nat.succ_lt_succ hi)
    simp only [List.length_cons, Memory.getBytes, hv, hvs]

/-- After DONE a read of bytes that have values answers their little-endian integer (R54). -/
theorem memRead_of_getBytes {s : State} {b : Nat} {n : AccessSize} {bytes : List Byte}
    (hd : s.done = true) (ha : s.abort = false) (hin : b + n.bytes ≤ imageBytes)
    (h : s.img.getBytes b n.bytes = some bytes) : memRead s b n = .next (littleEndian bytes) := by
  simp [memRead, hd, ha, hin.not_gt, h]

theorem memRead_of_get {s : State} {b : Nat} {n : AccessSize} {bytes : List Byte}
    (hd : s.done = true) (ha : s.abort = false) (hin : b + n.bytes ≤ imageBytes)
    (hlen : bytes.length = n.bytes) (h : ∀ i, i < n.bytes → s.img.get (b + i) = bytes[i]?) :
    memRead s b n = .next (littleEndian bytes) := by
  rw [← hlen] at h
  exact memRead_of_getBytes hd ha hin (hlen ▸ Memory.getBytes_of_get h)

/-- Settles O43: a stored word's bytes are its digits in base 256, and reads after DONE see them so. -/
theorem theImageIsLittleEndian : Obligations.TheImageIsLittleEndian := by
  refine ⟨fun m a i w hi => ?_, fun s a i w hi ha hd hab hw => ⟨?_, ?_⟩⟩
  · rw [Memory.get_setWord, if_pos (by omega), wordByte_eq, show (4 * a + i) % 4 = i by omega]
  · rw [← wordByte_toNat]
    refine memRead_of_get (bytes := [wordByte w i]) hd hab ?_ rfl fun j hj => ?_
    · simp only [AccessSize.bytes, imageWords, imageBytes] at ha ⊢; omega
    · obtain rfl : j = 0 := Nat.lt_one_iff.1 hj
      exact Memory.get_of_getWord hw hi
  · rw [← littleEndian_wordBytes]
    refine memRead_of_get hd hab ?_ rfl fun j hj => ?_
    · simp only [AccessSize.bytes, imageWords, imageBytes] at ha ⊢; omega
    · rw [Memory.get_of_getWord hw hj, wordBytes_getElem? hj]

theorem littleEndian_eq_sum (bytes : List Byte) :
    littleEndian bytes = ∑ i : Fin bytes.length, bytes[i].toNat * 256 ^ i.val := by
  induction bytes with
  | nil => rfl
  | cons b bs ih =>
    simp only [littleEndian, ih, List.length_cons, Fin.sum_univ_succ, Finset.mul_sum]
    simp [pow_succ, mul_comm, mul_assoc]

theorem littleEndian_lt (bytes : List Byte) : littleEndian bytes < 256 ^ bytes.length := by
  induction bytes with
  | nil => simp [littleEndian]
  | cons b bs ih =>
    have hb := b.isLt
    simp only [littleEndian, List.length_cons, pow_succ]
    omega

/-- When the pass is over, every byte of the image has a value (R171, R177). -/
theorem State.Inv.isSome_get_of_done {s : State} (h : s.Inv) (hd : s.done = true) {b : Nat}
    (hb : b < imageBytes) : (s.img.get b).isSome = true := by
  have hend : slotStart s.cfg s.seq = imageWords := by
    simp [slotStart, h.done_iff.1 hd, order_beyond]
  have hword : b / 4 < imageWords := by simp only [imageBytes, imageWords] at hb ⊢; omega
  rw [h.value_iff_written, h.written_below _ hword, hend, decide_eq_true hb, decide_eq_true hword]
  rfl

theorem memRead_refused {s : State} (h : s.done = false ∨ s.abort = true) (b : Nat) (n : AccessSize) :
    memRead s b n = .refused .imageNotReadable := by
  rcases h with h | h <;> simp [memRead, h]

theorem emit_refused {s : State} (h : s.done = false ∨ s.abort = true) :
    emit s = .refused .imageNotReadable := by
  rcases h with h | h <;> simp [emit, h]

/-- Settles O50: the read of listed bytes, the sum of their digits, and the totality of reads in a
finished pass. -/
theorem memReadIsLittleEndian : Obligations.MemReadIsLittleEndian := by
  refine ⟨fun s b n bytes => memRead_of_get, littleEndian_eq_sum, fun s b n h hd hin => ?_,
    fun s b n h v => ?_⟩
  · have ha : s.abort = false := Bool.eq_false_iff.2 fun ha => h.not_both ⟨hd, ha⟩
    obtain ⟨bytes, hbytes⟩ := getBytes_isSome (m := s.img) (b := b) (n := n.bytes)
      fun a _ hlt => h.isSome_get_of_done hd (hlt.trans_le hin)
    exact ⟨_, memRead_of_getBytes hd ha hin hbytes, getBytes_length hbytes ▸ littleEndian_lt bytes⟩
  · rw [memRead_refused h]
    exact nofun

/-- Settles O44: neither read primitive looks at the image before DONE or after ABORT. -/
theorem noReadBeforeDone : Obligations.NoReadBeforeDone :=
  fun _ b n h => ⟨memRead_refused h b n, emit_refused h⟩

/-! ### Unoccupied slot numbers (R61) -/

/-- Settles O52: a row for an unoccupied slot number holds the empty result alone. -/
theorem unoccupiedSlotsHaveNoProgram : Obligations.UnoccupiedSlotsHaveNoProgram := by
  intro c slot rev dt h hocc
  obtain hnone | ⟨e, he, rfl, -, hans⟩ := build_cases c slot rev dt
  · exact hnone
  · have hrow := List.all_eq_true.1 (Cfg.unoccupiedOk_of_wf h) e he
    rw [hocc, Bool.false_or] at hrow
    rw [hans, answerFor_of_isNone hrow]

end Sys2Proof.Machine

/-! Proofs about the encoding (`spec/30_encoding.md` R80 to R100, R119): the decoder of each format reads
a micro-op from a word exactly when it is a micro-op of that format and the word is its word
(`decodeAs_eq_ok_iff`); the statements about decoding follow from that. -/

namespace Sys2Proof

open Machine

/-! ### The ranges of the immediates (R118) and when an encoder answers a word -/

theorem fits_seven_iff (v : Int) : fits 7 v = true ↔ -64 ≤ v ∧ v ≤ 63 := fits_iff 7 v

theorem fits_twentyfour_iff (v : Int) : fits 24 v = true ↔ -8388608 ≤ v ∧ v ≤ 8388607 := fits_iff 24 v

theorem fits_fourteen_iff (v : Int) : fits 14 v = true ↔ -8192 ≤ v ∧ v ≤ 8191 := fits_iff 14 v

theorem encAlui_eq_ok_iff {kind : AluKind} {srcA dest : Reg6} {imm : Int} {uf eoi adv : Bool}
    {size : Size3} {w : Word} : encAlui kind srcA imm dest uf eoi adv size = .ok w ↔
      fits 7 imm = true ∧ aluWord ((tc 7 imm).extractLsb' 6 1) (flagBit adv) size srcA
        ((tc 7 imm).extractLsb' 0 6) dest kind.code (flagBit uf) (flagBit eoi) 0b01#2 = w := by
  cases h : fits 7 imm with
  | true => simp [encAlui_ok h]
  | false => simp [encAlui_error h]

theorem encLdc_eq_ok_iff {dest : Reg6} {imm : Int} {w : Word} : encLdc dest imm = .ok w ↔
    fits 24 imm = true ∧
      ldcWord ((tc 24 imm).extractLsb' 7 17) dest ((tc 24 imm).extractLsb' 0 7) 0b10#2 = w := by
  cases h : fits 24 imm with
  | true => simp [encLdc_ok h]
  | false => simp [encLdc_error h]

theorem encJi_eq_ok_iff {creg : Reg6} {cond : Cond4} {off : Int} {w : Word} :
    encJi creg cond off = .ok w ↔ fits 14 off = true ∧
      jiWord ((tc 14 off).extractLsb' 13 1) cond creg ((tc 14 off).extractLsb' 7 6) 0#6
        ((tc 14 off).extractLsb' 0 7) 0b11#2 = w := by
  cases h : fits 14 off with
  | true => simp [encJi_ok h]
  | false => simp [encJi_error h]

/-! ### The immediates of a word (R86, R87, R88) -/

theorem imm7_of_fields {w : Word} {u : BitVec 7} (htop : field 31 1 w = u.extractLsb' 6 1)
    (hlow : field 15 6 w = u.extractLsb' 0 6) : imm7 w = sext u := by
  rw [imm7, htop, hlow, split7]

theorem imm24_of_fields {w : Word} {u : BitVec 24} (hhi : field 15 17 w = u.extractLsb' 7 17)
    (hlow : field 2 7 w = u.extractLsb' 0 7) : imm24 w = sext u := by
  rw [imm24, hhi, hlow, split24]

theorem off14_of_fields {w : Word} {u : BitVec 14} (htop : field 31 1 w = u.extractLsb' 13 1)
    (hmid : field 15 6 w = u.extractLsb' 7 6) (hlow : field 2 7 w = u.extractLsb' 0 7) :
    off14 w = sext u := by
  rw [off14, htop, hmid, hlow, split14]

/-- The signed value of seven bits is the low six less 64 times the sign bit (R86). -/
theorem sext_seven_eq (u : BitVec 7) :
    sext u = (u.extractLsb' 0 6).toNat - 64 * (u.extractLsb' 6 1).toNat := by
  revert u; decide

/-! ### A micro-op's word has its variant's tag, and a flag bit is its field -/

/-- The tag of a word is the tag of its micro-op's variant (R80). -/
theorem tagOf_of_encode {layout : Vector Word 64} {i : Instr} {w : Word}
    (h : encode layout i = .ok w) : tagOf w = i.variant.tag := by
  rw [tagOf_eq]
  cases i with
  | alur => cases h; simp [encAlur_eq, Instr.variant, Variant.tag]
  | alui => obtain ⟨-, rfl⟩ := encAlui_eq_ok_iff.1 h; simp [Instr.variant, Variant.tag]
  | ldc => obtain ⟨-, rfl⟩ := encLdc_eq_ok_iff.1 h; simp [Instr.variant, Variant.tag]
  | ji => obtain ⟨-, rfl⟩ := encJi_eq_ok_iff.1 h; simp [Instr.variant, Variant.tag]
  | jr => cases h; simp [encJr_eq, Instr.variant, Variant.tag]
  | nop => cases h; simp [nopWord_eq, Instr.variant, Variant.tag]

@[simp] theorem flagBit_flagAt (i : Nat) (w : Word) : flagBit (flagAt i w) = field i 1 w := by
  have bit : ∀ b : BitVec 1, flagBit (b.getLsbD 0) = b := by decide
  rw [flagAt_eq, bit]

/-! ### What each decoder answers -/

/-- A decoder that tests a bit pattern first answers a micro-op only past the test. -/
theorem ite_error_eq_ok_iff {ε α : Type} {p : Prop} [Decidable p] {e : ε} {x : Except ε α} {a : α} :
    (if p then .error e else x) = .ok a ↔ ¬p ∧ x = .ok a := by
  split <;> simp [*]

/-- Format `ALUR`: the decoder reads exactly the micro-ops of the format from their words. -/
theorem decodeAlur_eq_ok_iff {w : Word} {i : Instr} (layout : Vector Word 64) :
    decodeAlur w = .ok i ↔ i.variant = .alur ∧ encode layout i = .ok w := by
  constructor
  · intro h
    simp only [decodeAlur, ite_error_eq_ok_iff, ne_eq, not_not, Bool.not_eq_true] at h
    obtain ⟨htag, htop, h⟩ := h
    split at h
    · cases h
    next kind hkind =>
      cases h
      have hzero : field 31 1 w = 0#1 := by rw [← flagBit_flagAt, htop]; rfl
      refine ⟨rfl, congrArg Except.ok ?_⟩
      rw [encAlur_eq, code_of_kindOfCode hkind, ← hzero, ← htag]
      simp only [flagBit_flagAt, tagOf_eq, aluWord_fields]
  · rintro ⟨hv, he⟩
    cases i with
    | alur => cases he; simp [decodeAlur, tagOf_eq, flagAt_eq, encAlur_eq, kindOfCode_code]
    | _ => cases hv

/-- Format `ALUI`: the decoder reads exactly the micro-ops of the format from their words. -/
theorem decodeAlui_eq_ok_iff {w : Word} {i : Instr} (layout : Vector Word 64) :
    decodeAlui w = .ok i ↔ i.variant = .alui ∧ encode layout i = .ok w := by
  constructor
  · intro h
    simp only [decodeAlui, ite_error_eq_ok_iff, ne_eq, not_not] at h
    obtain ⟨htag, h⟩ := h
    split at h
    · cases h
    next kind hkind =>
      cases h
      refine ⟨rfl, encAlui_eq_ok_iff.2 ⟨fits_sext (by decide) _, ?_⟩⟩
      rw [imm7, tc_sext, BitVec.extractLsb'_append_eq_left, BitVec.extractLsb'_append_eq_right,
        code_of_kindOfCode hkind, ← htag]
      simp only [flagBit_flagAt, tagOf_eq, aluWord_fields]
  · rintro ⟨hv, he⟩
    cases i with
    | alui kind srcA imm dest uf eoi adv size =>
      obtain ⟨hfit, rfl⟩ := encAlui_eq_ok_iff.1 he
      simp [decodeAlui, tagOf_eq, flagAt_eq, kindOfCode_code, imm7, split7, sext_tc, hfit]
    | _ => cases hv

/-- Format `LDC`: the decoder reads exactly the micro-ops of the format from their words. -/
theorem decodeLdc_eq_ok_iff {w : Word} {i : Instr} (layout : Vector Word 64) :
    decodeLdc w = .ok i ↔ i.variant = .ldc ∧ encode layout i = .ok w := by
  constructor
  · intro h
    simp only [decodeLdc, ite_error_eq_ok_iff, ne_eq, not_not] at h
    obtain ⟨htag, h⟩ := h
    cases h
    refine ⟨rfl, encLdc_eq_ok_iff.2 ⟨fits_sext (by decide) _, ?_⟩⟩
    rw [imm24, tc_sext, BitVec.extractLsb'_append_eq_left, BitVec.extractLsb'_append_eq_right, ← htag,
      tagOf_eq, ldcWord_fields]
  · rintro ⟨hv, he⟩
    cases i with
    | ldc dest imm =>
      obtain ⟨hfit, rfl⟩ := encLdc_eq_ok_iff.1 he
      simp [decodeLdc, tagOf_eq, imm24, split24, sext_tc, hfit]
    | _ => cases hv

/-- Format `JI`: the decoder reads exactly the micro-ops of the format from their words. -/
theorem decodeJi_eq_ok_iff {w : Word} {i : Instr} (layout : Vector Word 64) :
    decodeJi w = .ok i ↔ i.variant = .ji ∧ encode layout i = .ok w := by
  constructor
  · intro h
    simp only [decodeJi, ite_error_eq_ok_iff, ne_eq, not_not] at h
    obtain ⟨htag, hzero, h⟩ := h
    cases h
    refine ⟨rfl, encJi_eq_ok_iff.2 ⟨fits_sext (by decide) _, ?_⟩⟩
    have hmid := BitVec.extractLsb'_append_eq_of_le (start := 7) (len := 6)
      (xhi := field 31 1 w ++ field 15 6 w) (xlo := field 2 7 w) le_rfl
    have htop := BitVec.extractLsb'_append_eq_of_le (start := 13) (len := 1)
      (xhi := field 31 1 w ++ field 15 6 w) (xlo := field 2 7 w) (by decide)
    rw [off14, tc_sext, htop, hmid, BitVec.extractLsb'_append_eq_left,
      BitVec.extractLsb'_append_eq_right, BitVec.extractLsb'_append_eq_right, ← htag, ← hzero,
      tagOf_eq, jiWord_fields]
  · rintro ⟨hv, he⟩
    cases i with
    | ji creg cond off =>
      obtain ⟨hfit, rfl⟩ := encJi_eq_ok_iff.1 he
      simp [decodeJi, tagOf_eq, off14, split14, sext_tc, hfit]
    | _ => cases hv

/-- The constant `NOP`: its decoder reads it from its word alone (R97). -/
theorem decodeNop_eq_ok_iff {w : Word} {i : Instr} (layout : Vector Word 64) :
    decodeNop w = .ok i ↔ i.variant = .nop ∧ encode layout i = .ok w := by
  constructor
  · intro h
    simp only [decodeNop] at h
    split at h
    · next hw => cases h; exact ⟨rfl, congrArg Except.ok hw.symm⟩
    · cases h
  · rintro ⟨hv, he⟩
    cases i with
    | nop => cases he; rfl
    | _ => cases hv

/-- The mask of R89 keeps every field that lies in bit 31 or in bits 20:2. -/
theorem field_jregPart {lo n : Nat} (h : ∀ i < n, lo + i = 31 ∨ 2 ≤ lo + i ∧ lo + i < 21) (w : Word) :
    field lo n (jregPart w) = field lo n w := by
  refine BitVec.eq_of_getLsbD_eq fun i hi => ?_
  have hin := h i hi
  simp only [field, BitVec.getLsbD_extractLsb', jregPart_getLsbD]
  grind

/-- The `JR` word of an offset register whose bits in the layout are the word's own is the word. -/
theorem encJr_of_jregPart {layout : Vector Word 64} {oreg : Reg6} {w : Word}
    (h : layout[oreg.toFin] = jregPart w) (htag : tagOf w = 0b11#2) :
    encJr layout (field 21 6 w) (field 27 4 w) oreg = w := by
  have htop : (jregPart w).extractLsb' 31 1 = field 31 1 w := field_jregPart (by decide) w
  have hbits : (jregPart w).extractLsb' 2 19 = field 2 19 w := field_jregPart (by decide) w
  rw [encJr_eq, h, htop, hbits, ← htag, tagOf_eq, jrWord_fields]

/-- Format `JR`, under a layout that R89 allows: the decoder reads exactly the micro-ops of the format
from their words. -/
theorem decodeJr_eq_ok_iff {c : Cfg} (hc : c.jregOk = true) {w : Word} {i : Instr} :
    decodeJr (oregIn c.jregBits) w = .ok i ↔ i.variant = .jr ∧ encode c.jregBits i = .ok w := by
  constructor
  · intro h
    simp only [decodeJr, ite_error_eq_ok_iff, ne_eq, not_not] at h
    obtain ⟨htag, h⟩ := h
    split at h
    · cases h
    next oreg horeg =>
      cases h
      exact ⟨rfl, congrArg Except.ok (encJr_of_jregPart (layout_of_oregIn horeg) htag)⟩
  · rintro ⟨hv, he⟩
    cases i with
    | jr creg cond oreg =>
      cases he
      have hpart := jregPart_encJr creg cond (Cfg.jregPart_layout hc oreg.toFin)
      simp only [decodeJr, hpart, oregIn_layout hc]
      simp [tagOf_eq, encJr_eq]
    | _ => cases hv

/-- A decoder told any variant but `JR` reads exactly that variant's micro-ops from their words. -/
theorem decodeAs_eq_ok_iff_of_ne_jr {v : Variant} (hv : v ≠ .jr) (oregOf : Word → Option Reg6)
    (layout : Vector Word 64) {w : Word} {i : Instr} :
    decodeAs oregOf v w = .ok i ↔ i.variant = v ∧ encode layout i = .ok w := by
  cases v with
  | alur => exact decodeAlur_eq_ok_iff layout
  | alui => exact decodeAlui_eq_ok_iff layout
  | ldc => exact decodeLdc_eq_ok_iff layout
  | ji => exact decodeJi_eq_ok_iff layout
  | jr => exact absurd rfl hv
  | nop => exact decodeNop_eq_ok_iff layout

/-- A decoder told the variant reads exactly that variant's micro-ops from their words (R95), under
every layout that R89 allows. -/
theorem decodeAs_eq_ok_iff {c : Cfg} (hc : c.jregOk = true) {v : Variant} {w : Word} {i : Instr} :
    decodeAs (oregIn c.jregBits) v w = .ok i ↔ i.variant = v ∧ encode c.jregBits i = .ok w := by
  by_cases hv : v = .jr
  · subst hv
    exact decodeJr_eq_ok_iff hc
  · exact decodeAs_eq_ok_iff_of_ne_jr hv _ _

/-- Settles O11: a well-formed micro-op has a word, and its variant's decoder reads it back. -/
theorem decodeAsInvertsEncode : Obligations.DecodeAsInvertsEncode := by
  intro c i hc hwf
  obtain ⟨w, he⟩ := (encode_ok_iff_wf c.jregBits i).2 hwf
  exact ⟨w, he, (decodeAs_eq_ok_iff hc).2 ⟨rfl, he⟩⟩

/-- Settles O13: whichever variant the word is taken for, its decoder reads only words of micro-ops. -/
theorem decodedWordsEncodeBack : Obligations.DecodedWordsEncodeBack := by
  intro c w i hc h
  obtain ⟨-, he⟩ := (decodeAs_eq_ok_iff hc).1 h
  exact ⟨(encode_ok_iff_wf c.jregBits i).1 ⟨w, he⟩, he⟩

/-! ### Bare words and bytes -/

/-- The bits that a `JI` word keeps zero (R84, R96). -/
theorem field_nine_six_of_encode_ji {layout : Vector Word 64} {i : Instr} {w : Word}
    (hi : i.variant = .ji) (h : encode layout i = .ok w) : field 9 6 w = 0#6 := by
  cases i with
  | ji => obtain ⟨-, rfl⟩ := encJi_eq_ok_iff.1 h; simp
  | _ => cases hi

/-- The word of any micro-op but `JR` is taken for that micro-op's variant, but for the one word that is
both `NOP` and `JI(0, 0, 0)` (R116; log entries 11 and 13). -/
theorem variantOf_of_encode {layout : Vector Word 64} {i : Instr} {w : Word} (hi : i.variant ≠ .jr)
    (h : encode layout i = .ok w) (hw : w ≠ nopWord) : variantOf w = i.variant := by
  have htag := tagOf_of_encode h
  cases hv : i.variant with
  | alur => simp [variantOf, htag, hv, Variant.tag]
  | alui => simp [variantOf, htag, hv, Variant.tag]
  | ldc => simp [variantOf, htag, hv, Variant.tag]
  | ji => simp [variantOf, htag, hv, Variant.tag, hw, field_nine_six_of_encode_ji hv h]
  | jr => exact absurd hv hi
  | nop =>
    cases i with
    | nop => cases h; exact absurd rfl hw
    | _ => cases hv

theorem decodeBytes_wordBytes {oregOf : Word → Option Reg6} {w : Word} {i : Instr}
    (h : decodeWord oregOf w = .ok i) (rest : List Byte) :
    decodeBytes oregOf (wordBytes w ++ rest) = .ok (i, rest) := by
  simp only [wordBytes, List.cons_append, List.nil_append, decodeBytes, wordOfBytes_wordByte, h]

/-- Settles O12: a word other than `NOP`'s is taken for its micro-op's variant, whose decoder reads it
back. -/
theorem decodeBytesInvertsEncode : Obligations.DecodeBytesInvertsEncode := by
  intro oregOf layout i w rest hi he
  refine decodeBytes_wordBytes ?_ rest
  split
  · next hw => subst hw; rfl
  · next hw =>
    rw [decodeWord, variantOf_of_encode hi he hw]
    exact (decodeAs_eq_ok_iff_of_ne_jr hi oregOf layout).2 ⟨rfl, he⟩

/-! ### Reserved patterns (R96) -/

/-- No ALU kind has a code of 16..29 (R91). -/
theorem AluKind.code_not_reserved (k : AluKind) : k.code.toNat < 16 ∨ 29 < k.code.toNat := by
  by_contra hreserved
  have hnone := (kindOfCode_eq_none_iff k.code).2 (by omega)
  rw [kindOfCode_code] at hnone
  cases hnone

/-- An `ALUR` word has bit 31 zero (R81). -/
theorem field_top_of_encode_alur {layout : Vector Word 64} {i : Instr} {w : Word}
    (hi : i.variant = .alur) (h : encode layout i = .ok w) : field 31 1 w = 0#1 := by
  cases i with
  | alur => cases h; simp [encAlur_eq]
  | _ => cases hi

/-- The kind field of an ALU word holds the code of a kind (R81, R82). -/
theorem field_kind_of_encode_alu {layout : Vector Word 64} {i : Instr} {w : Word}
    (hi : i.variant = .alur ∨ i.variant = .alui) (h : encode layout i = .ok w) :
    ∃ k : AluKind, field 4 5 w = k.code := by
  cases i with
  | alur kind => cases h; exact ⟨kind, by simp [encAlur_eq]⟩
  | alui kind => obtain ⟨-, rfl⟩ := encAlui_eq_ok_iff.1 h; exact ⟨kind, by simp⟩
  | _ => simp [Instr.variant] at hi

/-- An ALU word's kind is none of the reserved codes (R96). -/
theorem kind_not_reserved_of_encode_alu {layout : Vector Word 64} {i : Instr} {w : Word}
    (hi : i.variant = .alur ∨ i.variant = .alui) (h : encode layout i = .ok w) :
    (field 4 5 w).toNat < 16 ∨ 29 < (field 4 5 w).toNat := by
  obtain ⟨k, hk⟩ := field_kind_of_encode_alu hi h
  exact hk ▸ k.code_not_reserved

theorem Variant.tag_eq_zero_iff (v : Variant) : v.tag = 0b00#2 ↔ v = .alur := by
  cases v <;> decide

theorem Variant.tag_eq_one_iff (v : Variant) : v.tag = 0b01#2 ↔ v = .alui := by
  cases v <;> decide

/-- Settles O14: the words of each variant keep off the reserved patterns, and what a decoder reads is the
word of a micro-op of its variant. -/
theorem reservedPatternsAreNeverEmittedAndRefused :
    Obligations.ReservedPatternsAreNeverEmittedAndRefused := by
  refine ⟨fun layout i w h => ?_, fun w => ⟨fun htop i h => ?_, fun hmid i h => ?_,
    fun hkind i => ⟨fun h => ?_, fun h => ?_⟩⟩, fun _ => rfl, by decide⟩
  · rw [← tagOf_eq, tagOf_of_encode h, Variant.tag_eq_zero_iff, Variant.tag_eq_one_iff]
    exact ⟨fun hi => field_top_of_encode_alur hi h, fun hi => field_nine_six_of_encode_ji hi h,
      fun hi => kind_not_reserved_of_encode_alu hi h⟩
  · obtain ⟨hi, he⟩ := (decodeAlur_eq_ok_iff Cfg.sample.jregBits).1 h
    rw [field_top_of_encode_alur hi he] at htop
    exact absurd htop (by decide)
  · obtain ⟨hi, he⟩ := (decodeJi_eq_ok_iff Cfg.sample.jregBits).1 h
    exact hmid (field_nine_six_of_encode_ji hi he)
  · obtain ⟨hi, he⟩ := (decodeAlur_eq_ok_iff Cfg.sample.jregBits).1 h
    have := kind_not_reserved_of_encode_alu (.inl hi) he
    omega
  · obtain ⟨hi, he⟩ := (decodeAlui_eq_ok_iff Cfg.sample.jregBits).1 h
    have := kind_not_reserved_of_encode_alu (.inr hi) he
    omega

/-! ### Immediates, the no-operation and the words written out -/

/-- Settles O9: in range the word holds the pattern's bits, which the decoding reassembles to the signed
value of the pattern; outside the encoder names field and value. -/
theorem immediatesReassemble : Obligations.ImmediatesReassemble := by
  refine ⟨fun kind srcA dest imm uf eoi adv size => ?_, fun dest imm => ?_, fun creg cond off => ?_⟩
  · simp only [← fits_seven_iff]
    split
    · next hfit =>
      have hval : sext (tc 7 imm) = imm := sext_tc (by decide) hfit
      refine ⟨_, encAlui_ok hfit .., ?_, field_aluWord_top .., field_aluWord_srcB .., ?_⟩
      · rw [imm7_of_fields (field_aluWord_top ..) (field_aluWord_srcB ..), hval]
      · rw [field_aluWord_top, field_aluWord_srcB, ← sext_seven_eq, hval]
    · next hfit => exact encAlui_error (Bool.eq_false_iff.2 hfit) ..
  · simp only [← fits_twentyfour_iff]
    split
    · next hfit =>
      refine ⟨_, encLdc_ok hfit _, ?_, field_ldcWord_hi .., field_ldcWord_lo ..⟩
      rw [imm24_of_fields (field_ldcWord_hi ..) (field_ldcWord_lo ..), sext_tc (by decide) hfit]
    · next hfit => exact encLdc_error (Bool.eq_false_iff.2 hfit) _
  · simp only [← fits_fourteen_iff]
    split
    · next hfit =>
      refine ⟨_, encJi_ok hfit _ _, ?_, field_jiWord_top .., field_jiWord_mid .., field_jiWord_lo ..⟩
      rw [off14_of_fields (field_jiWord_top ..) (field_jiWord_mid ..) (field_jiWord_lo ..),
        sext_tc (by decide) hfit]
    · next hfit => exact encJi_error (Bool.eq_false_iff.2 hfit) _ _

/-- `JI(0, 0, 0)` and `NOP` have the same word (R116). -/
theorem encode_ji_zero (layout : Vector Word 64) : encode layout (.ji 0 0 0) = encode layout .nop := rfl

/-- Settles O7: `NOP`'s word is pushed, `JI(0, 0, 0)` has the same word, and a stored word gives each of
its bytes to the image. -/
theorem nopPushesTheNoOperationWord : Obligations.NopPushesTheNoOperationWord := by
  intro s
  refine ⟨rfl, by rw [exec_eq, exec_eq, encode_ji_zero], fun a _ m => ?_⟩
  have hbyte : ∀ i < 4, (m.setWord a nopWord).get (4 * a + i) = some (wordByte nopWord i) :=
    fun i hi => Memory.get_of_getWord (Memory.getWord_setWord_same m a nopWord) hi
  exact ⟨hbyte 0 (by decide), hbyte 1 (by decide), hbyte 2 (by decide), hbyte 3 (by decide)⟩

/-- A table word of 32 bits that is a micro-op's word, whole, reads as the micro-op. -/
theorem decodeTableWord_of_encode {layout : Vector Word 64} {i : Instr} {n : Nat} (hi : i.variant ≠ .jr)
    (he : encode layout i = .ok (BitVec.ofNat 32 (n % 2 ^ 32)))
    (hn : BitVec.ofNat 32 (n % 2 ^ 32) ≠ nopWord) : decodeTableWord 32 n = some i := by
  have h := decodeBytesInvertsEncode (fun bits => some (Config.tableOreg bits)) layout i _ [] hi he
  rw [if_neg hn, List.append_nil] at h
  simp only [decodeTableWord, h]

/-- Settles O15: the first four words are those of their micro-ops; the last two are read outright. -/
theorem decodesTheWordsWrittenOut : Obligations.DecodesTheWordsWrittenOut :=
  ⟨decodeTableWord_of_encode (layout := Cfg.sample.jregBits) (by decide) rfl (by decide),
    decodeTableWord_of_encode (layout := Cfg.sample.jregBits) (by decide) rfl (by decide),
    decodeTableWord_of_encode (layout := Cfg.sample.jregBits) (by decide) rfl (by decide),
    decodeTableWord_of_encode (layout := Cfg.sample.jregBits) (by decide) rfl (by decide), rfl, rfl⟩

end Sys2Proof

/-! Proofs about unit ENC (`spec/40_microop_encoder.md` R110 to R121): each format read as a number, what
executing a micro-op does with its word or its failure, and ENC.PROG element by element. -/

namespace Sys2Proof

open Machine

/-! ### The formats as numbers (R111 to R115) -/

theorem aluWord_toNat (top adv : BitVec 1) (size : BitVec 3) (srcA srcB dest : BitVec 6)
    (kind : BitVec 5) (uf eoi : BitVec 1) (tag : BitVec 2) :
    (aluWord top adv size srcA srcB dest kind uf eoi tag).toNat =
      top.toNat * 2 ^ 31 + adv.toNat * 2 ^ 30 + size.toNat * 2 ^ 27 + srcA.toNat * 2 ^ 21 +
        srcB.toNat * 2 ^ 15 + dest.toNat * 2 ^ 9 + kind.toNat * 2 ^ 4 + uf.toNat * 8 + eoi.toNat * 4 +
        tag.toNat := by
  show (top ++ adv ++ size ++ srcA ++ srcB ++ dest ++ kind ++ uf ++ eoi ++ tag).toNat = _
  simp only [toNat_append_eq]
  omega

theorem ldcWord_toNat (hi : BitVec 17) (dest : BitVec 6) (lo : BitVec 7) (tag : BitVec 2) :
    (ldcWord hi dest lo tag).toNat =
      hi.toNat * 2 ^ 15 + dest.toNat * 2 ^ 9 + lo.toNat * 4 + tag.toNat := by
  show (hi ++ dest ++ lo ++ tag).toNat = _
  simp only [toNat_append_eq]
  omega

theorem jiWord_toNat (top : BitVec 1) (cond : BitVec 4) (creg mid zero : BitVec 6) (lo : BitVec 7)
    (tag : BitVec 2) : (jiWord top cond creg mid zero lo tag).toNat =
      top.toNat * 2 ^ 31 + cond.toNat * 2 ^ 27 + creg.toNat * 2 ^ 21 + mid.toNat * 2 ^ 15 +
        zero.toNat * 2 ^ 9 + lo.toNat * 4 + tag.toNat := by
  show (top ++ cond ++ creg ++ mid ++ zero ++ lo ++ tag).toNat = _
  simp only [toNat_append_eq]
  omega

theorem jrWord_toNat (top : BitVec 1) (cond : BitVec 4) (creg : BitVec 6) (bits : BitVec 19)
    (tag : BitVec 2) : (jrWord top cond creg bits tag).toNat =
      top.toNat * 2 ^ 31 + cond.toNat * 2 ^ 27 + creg.toNat * 2 ^ 21 + bits.toNat * 4 + tag.toNat := by
  show (top ++ cond ++ creg ++ bits ++ tag).toNat = _
  simp only [toNat_append_eq]
  omega

/-- A word is given by its value: how each format is read as R111's kind of arithmetic formula. -/
theorem eq_ofNat_of_toNat_eq {w : Word} {n : Nat} (h : w.toNat = n) : w = BitVec.ofNat 32 n := by
  rw [← h, BitVec.ofNat_toNat, BitVec.setWidth_eq]

/-- The pattern of an immediate is the number `v mod 2^N` (R120). -/
theorem tc_toNat_eq (n : Nat) (v : Int) : (tc n v).toNat = (v % 2 ^ n).toNat := by
  rw [← tc_toNat, Int.toNat_natCast]

/-- A `JR` word is the layout's part or-ed with the other fields. -/
theorem jrWord_eq_or (top : BitVec 1) (cond : BitVec 4) (creg : BitVec 6) (bits : BitVec 19)
    (tag : BitVec 2) : jrWord top cond creg bits tag =
      jrWord top 0#4 0#6 bits 0#2 ||| jrWord 0#1 cond creg 0#19 tag := by
  refine BitVec.eq_of_getLsbD_eq fun i hi => ?_
  simp only [BitVec.getLsbD_or, jrWord_getLsbD, BitVec.getLsbD_zero]
  split_ifs <;> simp

/-- The bits that R89 gives to the layout, put at their places with every other field zero. -/
theorem jrWord_layout_fields (w : Word) :
    jrWord (w.extractLsb' 31 1) 0#4 0#6 (w.extractLsb' 2 19) 0#2 = jregPart w := by
  refine BitVec.eq_of_getLsbD_eq fun i hi => ?_
  simp only [jregPart_getLsbD, jrWord_getLsbD, BitVec.getLsbD_extractLsb', BitVec.getLsbD_zero]
  grind

/-! ### The fields of each word -/

theorem fits_eq_false_iff (n : Nat) (v : Int) :
    fits n v = false ↔ v < -(2 ^ (n - 1)) ∨ 2 ^ (n - 1) - 1 < v := by
  rw [← Bool.not_eq_true, fits_iff, not_and_or, not_le, not_le]

theorem fits_seven_eq_false_iff (v : Int) : fits 7 v = false ↔ v < -64 ∨ 63 < v :=
  fits_eq_false_iff 7 v

theorem fits_twentyfour_eq_false_iff (v : Int) : fits 24 v = false ↔ v < -8388608 ∨ 8388607 < v :=
  fits_eq_false_iff 24 v

theorem fits_fourteen_eq_false_iff (v : Int) : fits 14 v = false ↔ v < -8192 ∨ 8191 < v :=
  fits_eq_false_iff 14 v

/-- Settles O1: the fields of each format are the ones it is put together from, and the fields of a split
immediate put together are its pattern. -/
theorem encodersGiveTheFormats : Obligations.EncodersGiveTheFormats := by
  refine ⟨fun kind srcA srcB dest uf eoi adv size => ?_,
    fun kind srcA dest imm uf eoi adv size => ?_, fun dest imm => ?_, fun creg cond off => ?_,
    fun c creg cond oreg hc => ?_⟩
  · simp [encAlur_eq]
  · simp only [← fits_seven_eq_false_iff]
    split
    · next hout => exact encAlui_error hout ..
    · next hin => exact ⟨_, encAlui_ok (Bool.not_eq_false _ ▸ hin) .., by simp [split7]⟩
  · simp only [← fits_twentyfour_eq_false_iff]
    split
    · next hout => exact encLdc_error hout _
    · next hin => exact ⟨_, encLdc_ok (Bool.not_eq_false _ ▸ hin) _, by simp [split24]⟩
  · simp only [← fits_fourteen_eq_false_iff]
    split
    · next hout => exact encJi_error hout _ _
    · next hin => exact ⟨_, encJi_ok (Bool.not_eq_false _ ▸ hin) _ _, by simp [split14]⟩
  · exact ⟨jregPart_encJr creg cond (Cfg.jregPart_layout hc oreg.toFin), by simp [encJr_eq]⟩

/-- Settles O10: one decoder reads both micro-ops back from the word (R95); the tag is the variant's; the
sample's layout gives offset register 12 the bits of the offset 25. -/
theorem encodersAreInjective : Obligations.EncodersAreInjective := by
  refine ⟨fun c i j w hc hv hi hj => ?_, fun layout i w h => tagOf_of_encode h,
    Cfg.sample, Cfg.jregOk_of_wf Cfg.sample_wf, 7, 9, 12, 25, rfl⟩
  have hdi := (decodeAs_eq_ok_iff hc).2 ⟨rfl, hi⟩
  have hdj := (decodeAs_eq_ok_iff hc).2 ⟨hv.symm, hj⟩
  exact Except.ok.inj (hdi.symm.trans hdj)

/-! ### ENC.PROG (R121) -/

/-- `rs[k]` is the first failure among the answers `rs`, and its value is `e`. -/
def FirstFailure (rs : List (Except RangeFailure Word)) (e : RangeFailure) (k : Nat) : Prop :=
  rs[k]? = some (.error e) ∧ ∀ j, j < k → ∃ w, rs[j]? = some (.ok w)

theorem not_firstFailure_nil (e : RangeFailure) (k : Nat) : ¬FirstFailure [] e k := by
  simp [FirstFailure]

theorem firstFailure_error_cons_iff {rs : List (Except RangeFailure Word)} {e e' : RangeFailure}
    {k : Nat} : FirstFailure (.error e' :: rs) e k ↔ e' = e ∧ k = 0 := by
  cases k with
  | zero => simp [FirstFailure]
  | succ k =>
    refine ⟨fun ⟨_, hbefore⟩ => ?_, fun h => nomatch h.2⟩
    simpa using hbefore 0 k.succ_pos

theorem firstFailure_ok_cons_iff {rs : List (Except RangeFailure Word)} {w : Word}
    {e : RangeFailure} {k : Nat} :
    FirstFailure (.ok w :: rs) e k ↔ ∃ j, k = j + 1 ∧ FirstFailure rs e j := by
  cases k with
  | zero => simp [FirstFailure]
  | succ k =>
    simp only [FirstFailure, List.getElem?_cons_succ, Nat.forall_lt_succ_left, List.getElem?_cons_zero]
    simp

theorem encodeProgram_go_cons_of_ok {layout : Vector Word 64} {op : Instr} {w : Word}
    (h : encode layout op = .ok w) (i : Nat) (ops : List Instr) :
    encodeProgram.go layout i (op :: ops) = (encodeProgram.go layout (i + 1) ops).map (w :: ·) := by
  rw [encodeProgram.go, h]
  cases encodeProgram.go layout (i + 1) ops <;> rfl

theorem encodeProgram_go_cons_of_error {layout : Vector Word 64} {op : Instr} {e : RangeFailure}
    (h : encode layout op = .error e) (i : Nat) (ops : List Instr) :
    encodeProgram.go layout i (op :: ops) = .error (e, i) := by
  rw [encodeProgram.go, h]

theorem encodeProgram_go_eq_ok_iff {layout : Vector Word 64} {i : Nat} {p : List Instr}
    {ws : List Word} :
    encodeProgram.go layout i p = .ok ws ↔ p.map (encode layout) = ws.map .ok := by
  induction p generalizing i ws with
  | nil => simp [encodeProgram.go, eq_comm]
  | cons op ops ih =>
    cases he : encode layout op with
    | error e => cases ws <;> simp [encodeProgram_go_cons_of_error he, he]
    | ok w =>
      rw [encodeProgram_go_cons_of_ok he]
      cases ws with
      | nil => cases encodeProgram.go layout (i + 1) ops <;> simp [Except.map]
      | cons v vs =>
        simp only [List.map_cons, he, List.cons.injEq, Except.ok.injEq, ← ih (i := i + 1)]
        cases encodeProgram.go layout (i + 1) ops <;> simp [Except.map]

theorem encodeProgram_go_eq_error_iff {layout : Vector Word 64} {i k : Nat} {p : List Instr}
    {e : RangeFailure} : encodeProgram.go layout i p = .error (e, k) ↔
      ∃ j, k = i + j ∧ FirstFailure (p.map (encode layout)) e j := by
  induction p generalizing i with
  | nil => simp [encodeProgram.go, not_firstFailure_nil]
  | cons op ops ih =>
    cases he : encode layout op with
    | error e' =>
      simp [encodeProgram_go_cons_of_error he, he, firstFailure_error_cons_iff, eq_comm, and_comm]
    | ok w =>
      have hmap : (encodeProgram.go layout (i + 1) ops).map (w :: ·) = .error (e, k) ↔
          encodeProgram.go layout (i + 1) ops = .error (e, k) := by
        cases encodeProgram.go layout (i + 1) ops <;> simp [Except.map]
      rw [encodeProgram_go_cons_of_ok he, hmap, ih, List.map_cons, he]
      simp only [firstFailure_ok_cons_iff]
      constructor
      · rintro ⟨j, rfl, hj⟩
        exact ⟨j + 1, by omega, j, rfl, hj⟩
      · rintro ⟨-, rfl, j, rfl, hj⟩
        exact ⟨j, by omega, hj⟩

/-- Settles O24: the loop from position 0. -/
theorem encProgIsElementwise : Obligations.EncProgIsElementwise := by
  refine fun layout p => ⟨fun ws => encodeProgram_go_eq_ok_iff, fun e k => ?_, rfl⟩
  rw [encodeProgram, encodeProgram_go_eq_error_iff]
  simp [FirstFailure]

end Sys2Proof

namespace Sys2Proof.Machine

/-! ### Executing a micro-op (R110, R121, R251, R255) -/

theorem exec_of_encode_ok {i : Instr} {s : State} {w : Word} (h : encode s.cfg.jregBits i = .ok w) :
    exec i s = .next (s.pushWord w) := by
  rw [exec_eq, h]
  rfl

theorem sameButEncoding_pushWord (s : State) (w : Word) : sameButEncoding s (s.pushWord w) := by
  simp [sameButEncoding]

theorem abortedFrom_raise (s : State) (c : AbortCause) (k : Option SlotId) (o : Option Nat)
    (f : AbortField) (v : Int) : abortedFrom s (s.raise c k o f v) c f v := by
  simp [abortedFrom, sameButEncoding]

/-- A micro-op that the encoder rejects aborts the pass with the failure's field and value and the
position of the micro-op (R118, R251). -/
theorem exec_aborts_of_encode_error {i : Instr} {s : State} {e : RangeFailure}
    (h : encode s.cfg.jregBits i = .error e) :
    ∃ t, exec i s = .next t ∧ abortedFrom s t .encodingRange e.field e.value ∧
      t.abortRec.opIndex = s.ws.length := by
  rw [exec_eq, h]
  exact ⟨_, rfl, abortedFrom_raise .., rfl⟩

/-- Settles O8: the micro-op is well formed and its word is pushed, or it is not and the pass aborts. -/
theorem encodingLeavesEverythingElse : Obligations.EncodingLeavesEverythingElse := by
  intro i s
  obtain ⟨w, he, hx⟩ | ⟨e, he, hx⟩ := exec_cases i s
  · have hwf : i.wf = true := (encode_ok_iff_wf _ i).1 ⟨w, he⟩
    exact ⟨_, hx, sameButEncoding_pushWord s w, fun _ => rfl, fun _ => ⟨rfl, rfl, rfl, w, rfl⟩,
      fun h => by simp [hwf] at h⟩
  · have hwf : i.wf = false := Bool.eq_false_iff.2 fun h => by
      obtain ⟨w, hw⟩ := (encode_ok_iff_wf s.cfg.jregBits i).2 h
      simp [he] at hw
    exact ⟨_, hx, (abortedFrom_raise ..).1, fun _ => rfl, fun h => by simp [hwf] at h,
      fun _ => ⟨rfl, rfl, rfl, fun slot ho => by simp [ho]⟩⟩

/-- Settles O2: the fields of the ALU format as a number. -/
theorem alurPushesItsWord : Obligations.AlurPushesItsWord := by
  intro kind srcA srcB dest uf eoi adv size s
  refine exec_of_encode_ok (congrArg Except.ok (eq_ofNat_of_toNat_eq ?_))
  simp [encAlur_eq, aluWord_toNat]

/-- Settles O3: the ALU format as a number, with the pattern's top bit at 31 and its low six at 20:15. -/
theorem aluiPushesItsWordOrAborts : Obligations.AluiPushesItsWordOrAborts := by
  refine fun kind srcA dest imm uf eoi adv size s => ⟨fun hin => ?_, fun hout => ?_⟩
  · have hfit : fits 7 imm = true := (fits_seven_iff imm).2 hin
    refine exec_of_encode_ok ((encAlui_ok hfit ..).trans (congrArg Except.ok (eq_ofNat_of_toNat_eq ?_)))
    simp [aluWord_toNat, tc_toNat_eq, Nat.shiftRight_eq_div_pow]
    omega
  · have hfit : fits 7 imm = false := (fits_seven_eq_false_iff imm).2 hout
    exact exec_aborts_of_encode_error (e := ⟨.imm7, imm⟩) (encAlui_error hfit ..)

/-- Settles O4: the load-constant format as a number, with the pattern's upper bits at 31:15 and its low
seven at 8:2. -/
theorem ldcPushesItsWordOrAborts : Obligations.LdcPushesItsWordOrAborts := by
  refine fun dest imm s => ⟨fun hin => ?_, fun hout => ?_⟩
  · have hfit : fits 24 imm = true := (fits_twentyfour_iff imm).2 hin
    refine exec_of_encode_ok ((encLdc_ok hfit _).trans (congrArg Except.ok (eq_ofNat_of_toNat_eq ?_)))
    simp [ldcWord_toNat, tc_toNat_eq, Nat.shiftRight_eq_div_pow]
    omega
  · have hfit : fits 24 imm = false := (fits_twentyfour_eq_false_iff imm).2 hout
    exact exec_aborts_of_encode_error (e := ⟨.imm24, imm⟩) (encLdc_error hfit _)

/-- Settles O5: the immediate-jump format as a number, with the pattern split over bit 31, bits 20:15 and
bits 8:2. -/
theorem jiPushesItsWordOrAborts : Obligations.JiPushesItsWordOrAborts := by
  refine fun creg cond off s => ⟨fun hin => ?_, fun hout => ?_⟩
  · have hfit : fits 14 off = true := (fits_fourteen_iff off).2 hin
    refine exec_of_encode_ok ((encJi_ok hfit _ _).trans (congrArg Except.ok (eq_ofNat_of_toNat_eq ?_)))
    simp [jiWord_toNat, tc_toNat_eq, Nat.shiftRight_eq_div_pow]
    omega
  · have hfit : fits 14 off = false := (fits_fourteen_eq_false_iff off).2 hout
    exact exec_aborts_of_encode_error (e := ⟨.imm14, off⟩) (encJi_error hfit _ _)

/-- Settles O6: an allowed layout keeps to its own bits, so its value or-ed with the other fields is the
word. -/
theorem jrPushesItsWord : Obligations.JrPushesItsWord := by
  intro creg cond oreg s hc
  have hfields : jrWord 0#1 cond creg 0#19 0b11#2 =
      BitVec.ofNat 32 (cond.toNat * 2 ^ 27 + creg.toNat * 2 ^ 21 + 3) :=
    eq_ofNat_of_toNat_eq (by simp [jrWord_toNat])
  refine exec_of_encode_ok (congrArg Except.ok ?_)
  rw [encJr_eq, jrWord_eq_or, jrWord_layout_fields, Cfg.jregPart_layout hc, hfields]

end Sys2Proof.Machine

/-! Proofs about the descriptor table (`spec/41_descriptor_table.md` R140 to R147, R253): the 10-bit ROM
entries, the ROM between steps, and the window of a slot whose opcode has no descriptor. That window is
the case of an empty program in what a step from a good state places (`step_places`). -/

namespace Sys2Proof.Machine

/-! ### The ROM and its entries (R141 to R143, R146) -/

/-- Settles O18: an abort and a completed slot both keep the ROM and the configuration, and so does a
reset. -/
theorem stepsKeepRomAndConfiguration : Obligations.StepsKeepRomAndConfiguration := by
  refine ⟨fun s t h => ?_, fun s => ⟨State.hostReset_rom s, State.hostReset_cfg s⟩⟩
  obtain ⟨slot, -, -, -, ⟨c, k, o, f, v, rfl⟩ | hc⟩ := step_raises_or_completes h
  · exact ⟨State.raise_rom .., State.raise_cfg ..⟩
  · exact ⟨hc.rom, hc.cfg⟩

/-- Settles O16: DT.INIT stores the very entries that a lookup reads. -/
theorem lookupGivesTheInitialContents : Obligations.LookupGivesTheInitialContents :=
  fun _ _ => rfl

/-- The entry of a descriptor from its fields, bit 9 (valid) down (R141). -/
def presentEntry (na : Bool) (alu : BitVec 5) (uf sx st : Bool) : BitVec 10 :=
  1#1 ++ flagBit na ++ alu ++ flagBit uf ++ flagBit sx ++ flagBit st

theorem romEntry_some (d : Descriptor) : romEntry (some d) =
    presentEntry d.alu.isNone ((d.alu.map AluKind.code).getD 0#5) d.uf d.sx d.st := by
  obtain ⟨code, alu, uf, sx, st⟩ := d
  cases alu <;> rfl

theorem presentEntry_getLsbD (na : Bool) (alu : BitVec 5) (uf sx st : Bool) (i : Nat) :
    (presentEntry na alu uf sx st).getLsbD i =
      if i < 1 then (flagBit st).getLsbD i
      else if i - 1 < 1 then (flagBit sx).getLsbD (i - 1)
      else if i - 1 - 1 < 1 then (flagBit uf).getLsbD (i - 1 - 1)
      else if i - 1 - 1 - 1 < 5 then alu.getLsbD (i - 1 - 1 - 1)
      else if i - 1 - 1 - 1 - 5 < 1 then (flagBit na).getLsbD (i - 1 - 1 - 1 - 5)
      else (1#1).getLsbD (i - 1 - 1 - 1 - 5 - 1) := by
  change (1#1 ++ flagBit na ++ alu ++ flagBit uf ++ flagBit sx ++ flagBit st).getLsbD i = _
  simp only [BitVec.getLsbD_append]

/-- Each field of a present entry, read back at its place in R141's table. -/
theorem presentEntry_fields (na : Bool) (alu : BitVec 5) (uf sx st : Bool) :
    let e := presentEntry na alu uf sx st
    e.getLsbD 9 = true ∧ e.getLsbD 8 = na ∧ e.extractLsb' 3 5 = alu ∧
      e.getLsbD 2 = uf ∧ e.getLsbD 1 = sx ∧ e.getLsbD 0 = st := by
  have bit : ∀ b, (flagBit b).getLsbD 0 = b := by decide
  have halu : (presentEntry na alu uf sx st).extractLsb' 3 5 = alu := by
    refine BitVec.eq_of_getLsbD_eq fun i hi => ?_
    simp only [BitVec.getLsbD_extractLsb', presentEntry_getLsbD, hi, decide_true, Bool.true_and]
    rw [if_neg (by omega), if_neg (by omega), if_neg (by omega), if_pos (by omega)]
    congr 1
    omega
  have hbit := presentEntry_getLsbD na alu uf sx st
  exact ⟨hbit 9, (hbit 8).trans (bit na), halu, (hbit 2).trans (bit uf), (hbit 1).trans (bit sx),
    (hbit 0).trans (bit st)⟩

/-- The entry at the index of its code stands for the descriptor (R141). -/
theorem descriptorOfEntry_romEntry (d : Descriptor) :
    descriptorOfEntry d.code (romEntry (some d)) = some (some d) := by
  obtain ⟨code, alu, uf, sx, st⟩ := d
  obtain ⟨hvalid, hna, halu, huf, hsx, hst⟩ :=
    presentEntry_fields alu.isNone ((alu.map AluKind.code).getD 0#5) uf sx st
  rw [romEntry_some]
  simp only [descriptorOfEntry, hvalid, hna, halu, huf, hsx, hst, if_true]
  cases alu with
  | none => rfl
  | some k => simp [kindOfCode_code]

/-- Settles O17: a present entry is its fields in R141's order, and the entry of `none` is all zero. -/
theorem romEntriesStandForDescriptors : Obligations.RomEntriesStandForDescriptors :=
  ⟨fun d => ⟨descriptorOfEntry_romEntry d, romEntry_some d ▸ presentEntry_fields ..⟩, rfl, fun _ => rfl⟩

/-! ### What a step from a good state places (R164, R165, R171) -/

/-- Four bytes that are those of a word read as the word (R52). -/
theorem Memory.getWord_of_get {m : Memory} {a : Nat} {w : Word}
    (h : ∀ i < 4, m.get (4 * a + i) = some (wordByte w i)) : m.getWord a = some w := by
  have h0 : m.get (4 * a) = some (wordByte w 0) := h 0 (by decide)
  simp only [Memory.getWord, h0, h 1 (by decide), h 2 (by decide), h 3 (by decide),
    wordOfBytes_wordByte]

/-- A run of word writes leaves its words to be read. -/
theorem Wrote.getWord {a i : Nat} {ws : List Word} {s t : State} {w : Word} (h : Wrote a ws s t)
    (hw : ws[i]? = some w) : t.img.getWord (a + i) = some w := by
  obtain ⟨hi, -⟩ := List.getElem?_eq_some_iff.1 hw
  refine Memory.getWord_of_get fun j hj => ?_
  have hdiv : (4 * (a + i) + j) / 4 = a + i := by omega
  have hmod : (4 * (a + i) + j) % 4 = j := by omega
  rw [h.get, hdiv, hmod, if_pos (by omega), Nat.add_sub_cancel_left, hw, Option.map_some]

/-- The words of a slot at SEQ lie in the image and are not written yet, so PLACE succeeds (R69). -/
theorem State.Inv.place_ok {s : State} {slot : SlotId} {ws : List Word} (h : s.Inv)
    (ho : order s.seq = some slot) (hl : ws.length ≤ window slot) :
    ∃ u, place slot ws (s.withWords ws) = .ok u := by
  have hlen := windowWords_length hl
  have hend : base s.cfg slot + window slot ≤ imageWords :=
    base_add_window (Cfg.stridesOk_of_wf h.cfg_wf) ho ▸ slotStart_le (Cfg.stridesOk_of_wf h.cfg_wf) _
  refine writeWords_ok (hlen.symm ▸ hend) fun b hlo hhi => ?_
  have hb : s.written b = decide (b < slotStart s.cfg s.seq) :=
    h.written_below b (by simp only [State.withWords_cfg] at hhi; omega)
  exact hb.trans (decide_eq_false (by rw [slotStart_of_order ho]; exact hlo.not_gt))

/-- Once the last slot's words are placed, every word of the image is written (R69, R171). -/
theorem State.Inv.allWritten_of_last {s u : State} {slot : SlotId} {ws : List Word} (h : s.Inv)
    (ho : order s.seq = some slot) (hlast : s.seq + 1 = slotCount)
    (hl : ws.length ≤ window slot)
    (hw : Wrote (base s.cfg slot) (windowWords (window slot) ws) (s.withWords ws) u) :
    allWritten u.wr = true := by
  have hend : base s.cfg slot + window slot = imageWords := by
    rw [base_add_window (Cfg.stridesOk_of_wf h.cfg_wf) ho, hlast]
    simp [slotStart, order_beyond]
  refine (allWritten_iff u.wr).2 fun a ha => ?_
  have hbelow : s.written a = decide (a < base s.cfg slot) :=
    slotStart_of_order ho s.cfg ▸ h.written_below a ha
  have hu : u.written a = (s.written a || _) := hw.written a
  rw [windowWords_length hl, hbelow, ← Bool.decide_or] at hu
  exact hu.trans (decide_eq_true (by omega))

/-- A step from a good state whose program fits and encodes writes the window's words and advances, with
DONE set by the last slot alone. -/
theorem step_places {s : State} {slot : SlotId} {ws : List Word} (h : s.Inv) (ha : s.abort = false)
    (hd : s.done = false) (ho : order s.seq = some slot)
    (hl : (programFor s slot).length ≤ window slot)
    (he : encodeProgram s.cfg.jregBits (programFor s slot) = .ok ws) :
    ∃ u, Wrote (base s.cfg slot) (windowWords (window slot) ws) (s.withWords ws) u ∧
      step s = .next { u.advance with done := decide (s.seq + 1 = slotCount) } := by
  have hlen : ws.length ≤ window slot := encodeProgram_length he ▸ hl
  obtain ⟨u, hp⟩ := h.place_ok ho hlen
  have hw := writeWords_wrote hp
  have hseq : u.seq = s.seq := by rw [hw.rest]; rfl
  have hdone : u.done = false := by rw [hw.rest]; exact hd
  have hstep : step s =
      if s.seq + 1 = slotCount then finish s u.advance else .next u.advance := by
    simp only [step_eq_completeSlot ha hd ho hl he, completeSlot, State.withWords_ws, hp,
      State.advance_seq, hseq]
  refine ⟨u, hw, hstep.trans ?_⟩
  split
  · next hlast =>
    have hall : allWritten u.wr = true := h.allWritten_of_last ho hlast hlen hw
    rw [finish, State.advance_wr, if_pos hall, decide_eq_true hlast]
    rfl
  · next hlast =>
    rw [decide_eq_false hlast, ← hdone]
    rfl

/-! ### An empty window (R144, R167, R253) -/

/-- A step from a good state for a slot with no program makes its window all NOP, without an abort. -/
theorem step_of_empty_program {s : State} {slot : SlotId} (h : s.Inv) (ha : s.abort = false)
    (hd : s.done = false) (ho : order s.seq = some slot) (hp : programFor s slot = []) :
    ∃ t, step s = .next t ∧ t.abort = false ∧ t.seq = s.seq + 1 ∧
      (∀ i, i < window slot → t.img.getWord (base s.cfg slot + i) = some nopWord) ∧
      (∀ b, ¬inWindow s.cfg slot b → t.img.get b = s.img.get b) := by
  have he : encodeProgram s.cfg.jregBits (programFor s slot) = .ok [] := by rw [hp]; rfl
  obtain ⟨u, hw, hstep⟩ := step_places h ha hd ho (by simp [hp]) he
  refine ⟨_, hstep, ?_, ?_, fun i hi => ?_, fun b hb => ?_⟩
  · rw [hw.rest]; exact ha
  · rw [hw.rest]; rfl
  · exact hw.getWord (windowWords_getElem? hi (Nat.zero_le _))
  · rw [inWindow] at hb
    refine (hw.get b).trans (if_neg ?_)
    rw [windowWords_length (Nat.zero_le _)]
    omega

/-- Under R204 the builder gives no program for a slot whose opcode the ROM leaves unassigned. -/
theorem programFor_of_unassigned {s : State} {slot : SlotId} {k : Fin 32}
    (hc : unassignedContract s.cfg) (hrom : s.rom = s.cfg.dtInit) (hk : opcodeOfSlot slot = some k)
    (hnone : dtLookup s k = none) : programFor s slot = [] := by
  rw [dtLookup, hrom] at hnone
  rw [programFor, hrom, hc slot (revOf s) k hk hnone, programOf]

/-- Settles O26: the ROM holds `CFG.dt_init`, so R204 leaves the slot without a program. -/
theorem unassignedOpcodeGivesNops : Obligations.UnassignedOpcodeGivesNops :=
  fun _ _ _ h ha hd hc ho hk hnone =>
    step_of_empty_program h ha hd ho (programFor_of_unassigned hc h.rom_init hk hnone)

end Sys2Proof.Machine

/-! Proofs about the image assembler (`spec/42_image_assembler.md` R160 to R178). Three layers: the step as an
equation for each way it can go; a run of steps from a good state, which ends at 882 (`asmRun_ends`); and
states that differ only in what the host owns, which step alike (`step_rehost`). -/

namespace Sys2Proof.Machine

/-! ### The plan (R161 to R163) -/

theorem slotStart_slotCount (c : Cfg) : slotStart c slotCount = imageWords := by
  simp [slotStart, order_beyond]

/-- Settles O19: a window begins at the start of its slot number and ends at the start of the next, from 0
up to the end of the image. -/
theorem windowsTileTheImage : Obligations.WindowsTileTheImage := by
  intro c h
  refine ⟨fun slot ho => ?_, fun n slot slot' ho ho' => ?_, fun slot ho => ?_, order_isSome_iff⟩
  · rw [← slotStart_of_order ho, slotStart_zero h]
  · rw [base_add_window h ho, slotStart_of_order ho']
  · rw [base_add_window h ho, slotStart_slotCount]

/-! ### The ways a step can go (R164) -/

theorem step_of_abort {s : State} (ha : s.abort = true) : step s = .fault .passAborted := by
  simp [step, asmStep, ha]

theorem step_of_done {s : State} (ha : s.abort = false) (hd : s.done = true) :
    step s = .fault .passDone := by
  simp [step, asmStep, ha, hd]

theorem step_of_no_slot {s : State} (ha : s.abort = false) (hd : s.done = false)
    (ho : order s.seq = none) : step s = .fault .seqBeyondPlan := by
  simp [step, asmStep, ha, hd, ho]

section AtSlot

variable {s : State} {slot : SlotId} (ha : s.abort = false) (hd : s.done = false)
  (ho : order s.seq = some slot)

include ha hd ho

theorem step_eq_asmSlot : step s = asmSlot s slot := by
  simp [step, asmStep, ha, hd, ho]

theorem step_of_too_long (hl : window slot < (programFor s slot).length) :
    step s = .next (s.raise .layoutMismatch (some slot) none .length (programFor s slot).length) := by
  rw [step_eq_asmSlot ha hd ho, asmSlot, if_pos hl]

theorem step_of_encode_error (hl : (programFor s slot).length ≤ window slot) {e : RangeFailure} {k : Nat}
    (he : encodeProgram s.cfg.jregBits (programFor s slot) = .error (e, k)) :
    step s = .next (s.raise .encodingRange (some slot) (some k) e.field e.value) := by
  rw [step_eq_asmSlot ha hd ho, asmSlot, if_neg hl.not_gt, encProg_start _ _ ha, he]
  simp [ho]

/-- A step whose words are placed ends in FINISH at the last slot, and goes on from any other. -/
theorem step_of_place (hl : (programFor s slot).length ≤ window slot) {ws : List Word} {u : State}
    (he : encodeProgram s.cfg.jregBits (programFor s slot) = .ok ws)
    (hp : place slot ws (s.withWords ws) = .ok u) :
    step s = if s.seq + 1 = slotCount then finish s u.advance else .next u.advance := by
  have hseq : u.seq = s.seq := by rw [(writeWords_wrote hp).rest]; rfl
  simp only [step_eq_completeSlot ha hd ho hl he, completeSlot, State.withWords_ws, hp,
    State.advance_seq, hseq]

end AtSlot

/-- Settles O27: the length check stands before every write. -/
theorem tooLongProgramAborts : Obligations.TooLongProgramAborts :=
  fun _ _ ha hd ho hl => ⟨_, step_of_too_long ha hd ho hl, abortedFrom_raise .., rfl⟩

/-- Settles O23: a program of one micro-op fits every window, and ENC.PROG of it is its `exec`; a loaded
word is the first row for its slot. -/
theorem stepRunsTheDecodedInstruction : Obligations.StepRunsTheDecodedInstruction := by
  refine ⟨fun s slot i ha hd ho hp => ?_, fun s slot nbits w i ho hw => ?_⟩
  · have hfits : ¬window slot < [i].length := (Nat.succ_le_of_lt (window_pos slot)).not_gt
    rw [step_eq_asmSlot ha hd ho, asmSlot, hp, if_neg hfits, encProg]
    obtain ⟨w, -, hx⟩ | ⟨e, -, hx⟩ := exec_cases i s.startProgram
    · simp [hx, encProg, ha]
    · simp [hx]
  · have hload : s.withFetchWord nbits w = presentInstr i s := by
      simp only [State.withFetchWord, presentWord, hw]
    simp [hload, presentInstr, ho, programFor, build, answersTable, answerFor, programOf]

/-! ### A step answers a next state exactly when it is enabled (R164) -/

theorem State.enabled_iff {s : State} :
    s.enabled = true ↔ s.abort = false ∧ s.done = false ∧ ∃ slot, order s.seq = some slot := by
  simp [State.enabled, ← Option.isSome_iff_exists, order_isSome_iff, and_assoc]

/-- Word writes fail with an address outside the image only when their range passes its end. -/
theorem lt_of_writeWords_outside {a b : Nat} {ws : List Word} {s : State}
    (h : writeWords a ws s = .error (.outside b)) : imageWords < a + ws.length := by
  induction ws generalizing a s with
  | nil => cases h
  | cons w ws ih =>
    rw [List.length_cons]
    simp only [writeWords] at h
    split at h
    · next e he =>
      cases h
      obtain ⟨hge, -⟩ | ⟨-, -, heq⟩ := wordWrite_error_iff.1 he
      · omega
      · cases heq
    · have := ih h
      omega

/-- With the strides of R60 an enabled step never faults. -/
theorem step_of_enabled {s : State} (hs : s.cfg.stridesOk = true) (h : s.enabled = true) :
    ∃ t, step s = .next t := by
  obtain ⟨ha, hd, slot, ho⟩ := State.enabled_iff.1 h
  by_cases hl : window slot < (programFor s slot).length
  · exact ⟨_, step_of_too_long ha hd ho hl⟩
  rw [not_lt] at hl
  cases he : encodeProgram s.cfg.jregBits (programFor s slot) with
  | error e => exact ⟨_, step_of_encode_error ha hd ho hl he⟩
  | ok ws =>
    cases hp : place slot ws (s.withWords ws) with
    | ok u =>
      rw [step_of_place ha hd ho hl he hp, finish]
      split_ifs
      exacts [⟨_, rfl⟩, ⟨_, rfl⟩, ⟨_, rfl⟩]
    | error e =>
      rw [step_eq_completeSlot ha hd ho hl he, completeSlot, State.withWords_ws, hp]
      cases e with
      | overlap a => exact ⟨_, rfl⟩
      | outside a =>
        have hpast := lt_of_writeWords_outside hp
        rw [windowWords_length (encodeProgram_length he ▸ hl), State.withWords_cfg,
          base_add_window hs ho] at hpast
        exact absurd hpast (slotStart_le hs _).not_gt

/-- Settles O32: an enabled step goes on or raises an abort; each flag, and a SEQ beyond the plan, is a
fault. -/
theorem stepIsEnabledExactlyWhen : Obligations.StepIsEnabledExactlyWhen := by
  refine ⟨fun s hs => ⟨fun ⟨t, h⟩ => ?_, step_of_enabled hs⟩, fun s h => ?_⟩
  · obtain ⟨slot, ho, ha, hd, -⟩ := step_cases h
    exact State.enabled_iff.2 ⟨ha, hd, slot, ho⟩
  · cases ha : s.abort with
    | true => exact ⟨_, step_of_abort ha⟩
    | false =>
      cases hd : s.done with
      | true => exact ⟨_, step_of_done ha hd⟩
      | false =>
        cases ho : order s.seq with
        | none => exact ⟨_, step_of_no_slot ha hd ho⟩
        | some slot => simp [State.enabled_iff.2 ⟨ha, hd, slot, ho⟩] at h

/-! ### What a step places (R165, R167) -/

/-- Settles O25: the words of the window are written and nothing else. -/
theorem stepPlacesTheProgram : Obligations.StepPlacesTheProgram := by
  intro s slot ws h ha hd ho hl he
  have hlen : ws.length ≤ window slot := encodeProgram_length he ▸ hl
  obtain ⟨u, hw, hstep⟩ := step_places h ha hd ho hl he
  refine ⟨_, hstep, ?_, ?_, rfl, rfl, ?_, ?_, ?_, fun i hi => ?_, fun b hb => ?_, fun a => ?_⟩
  · rw [hw.rest]; exact ha
  · rw [hw.rest]; rfl
  · rw [hw.rest]; rfl
  · rw [hw.rest]; rfl
  · rw [hw.rest]; rfl
  · exact hw.getWord (windowWords_getElem? hi hlen)
  · rw [inWindow] at hb
    refine (hw.get b).trans (if_neg ?_)
    rw [windowWords_length hlen]
    omega
  · exact (windowWords_length hlen ▸ hw.written a :)

theorem stepLabel_of_empty_program {s : State} {slot : SlotId} (ho : order s.seq = some slot)
    (hp : programFor s slot = []) : stepLabel s = none := by
  have hlabel : labelOf (build s.cfg slot (revOf s) s.rom) = none := (labelOf_eq_none_iff _).2 hp
  simp [stepLabel, ho, hlabel]

/-- Settles O51: an empty program has no label, and no word before the padding. -/
theorem emptyResultGivesNops : Obligations.EmptyResultGivesNops :=
  fun _ _ h ha hd ho hp => ⟨stepLabel_of_empty_program ho hp, step_of_empty_program h ha hd ho hp⟩

/-! ### The end of the pass (R171) -/

theorem mem_unwritten_iff {wr : BitVec 8192} {a : Nat} :
    a ∈ unwritten wr ↔ a < imageWords ∧ wr.getLsbD a = false := by
  simp [unwritten]

/-- What FINISH reports is one of the unwritten words, when there is one. -/
theorem reportedUnwritten_mem {s : State} (h : allWritten s.wr = false) :
    reportedUnwritten s ∈ unwritten s.wr := by
  have hne : unwritten s.wr ≠ [] := by
    intro hnil
    have hall : allWritten s.wr = true := (allWritten_iff _).2 fun a ha => by
      by_contra hf
      exact List.not_mem_nil (hnil ▸ mem_unwritten_iff.2 ⟨ha, Bool.eq_false_iff.2 hf⟩)
    simp [h] at hall
  have hlt := Nat.mod_lt (Config.freeChoice s.free) (List.length_pos_iff.2 hne)
  rw [reportedUnwritten, List.getD_eq_getElem _ _ hlt]
  exact List.getElem_mem hlt

/-- Settles O30: the last window ends the image, so the words not written after it are those below it. -/
theorem finishChecksEveryWord : Obligations.FinishChecksEveryWord := by
  intro s slot ws hs ha hd ho hlast hl he hfree
  have hend : base s.cfg slot + window slot = imageWords := by
    rw [base_add_window hs ho, hlast, slotStart_slotCount]
  have hlen : (windowWords (window slot) ws).length = window slot :=
    windowWords_length (encodeProgram_length he ▸ hl)
  obtain ⟨u, hp⟩ : ∃ u, place slot ws (s.withWords ws) = .ok u :=
    writeWords_ok (by rw [hlen]; exact hend.le) fun b hlo hhi =>
      hfree b hlo (by rw [hlen] at hhi; exact hend ▸ hhi)
  have hw := writeWords_wrote hp
  have hwritten : ∀ a, a < imageWords →
      u.wr.getLsbD a = (s.written a || decide (base s.cfg slot ≤ a)) := fun a ha => by
    refine (hw.written a).trans (congrArg (s.written a || ·) (decide_eq_decide.2 ?_))
    rw [hlen, State.withWords_cfg]
    omega
  have hstep : step s = finish s u.advance := by
    rw [step_of_place ha hd ho hl he hp, if_pos hlast]
  by_cases hall : allWritten u.wr = true
  · rw [finish, State.advance_wr, if_pos hall] at hstep
    refine ⟨_, hstep, fun _ => ⟨rfl, ?_, ?_⟩, fun ⟨a, hlt, hf⟩ => ?_⟩
    · rw [hw.rest]; exact ha
    · rw [hw.rest]; exact hlast
    · have := (allWritten_iff _).1 hall a (by omega)
      rw [hwritten a (by omega), hf, Bool.false_or, decide_eq_true_iff] at this
      omega
  · rw [finish, State.advance_wr, if_neg hall] at hstep
    obtain ⟨hv, hunwritten⟩ := mem_unwritten_iff.1
      (reportedUnwritten_mem (s := u.advance) (Bool.eq_false_iff.2 hall))
    rw [State.advance_wr, hwritten _ hv, Bool.or_eq_false_iff, decide_eq_false_iff_not,
      not_le] at hunwritten
    obtain ⟨hf, hbelow⟩ := hunwritten
    refine ⟨_, hstep, fun h => absurd (h _ hbelow) (by simp [hf]), fun _ => ?_⟩
    exact ⟨_, hbelow, hf, abortedFrom_raise ..⟩

/-! ### The handover (R175, R177) -/

theorem Memory.get_of_getBytes {m : Memory} {b n i : Nat} {bytes : List Byte}
    (h : m.getBytes b n = some bytes) (hi : i < n) : bytes[i]? = m.get (b + i) := by
  induction n generalizing b bytes i with
  | zero => omega
  | succ n ih =>
    simp only [Memory.getBytes] at h
    split at h
    · next v vs hv hvs =>
      cases h
      cases i with
      | zero => exact hv.symm
      | succ i => simpa [Nat.add_assoc, Nat.add_comm 1 i] using ih hvs (Nat.lt_of_succ_lt_succ hi)
    · cases h

/-- After DONE, EMIT's bytes are the bytes of the image, when all have values. -/
theorem emitFrom_of_getBytes {s : State} {b n : Nat} {bytes : List Byte} (hd : s.done = true)
    (ha : s.abort = false) (hin : b + n ≤ imageBytes) (h : s.img.getBytes b n = some bytes) :
    emitFrom s b n = .next bytes := by
  induction n generalizing b bytes with
  | zero => cases h; rfl
  | succ n ih =>
    simp only [Memory.getBytes] at h
    split at h
    · next v vs hv hvs =>
      cases h
      have hbyte : memRead s b .byte = .next (littleEndian [v]) :=
        memRead_of_getBytes hd ha (Nat.le_trans (by simp [AccessSize.bytes]) hin)
          (by simp [AccessSize.bytes, Memory.getBytes, hv])
      simp [emitFrom, hbyte, ih (b := b + 1) (by omega) hvs, littleEndian]
    · cases h

theorem emit_of_getBytes {s : State} {bytes : List Byte} (hd : s.done = true) (ha : s.abort = false)
    (h : s.img.getBytes 0 imageBytes = some bytes) : emit s = .next bytes := by
  simp [emit, hd, ha, emitFrom_of_getBytes hd ha (Nat.zero_add _).le h]

/-- Settles O45: in a finished pass every byte of the image has a value. -/
theorem emitGivesTheWholeImage : Obligations.EmitGivesTheWholeImage := by
  intro s h hd
  have ha : s.abort = false := Bool.eq_false_iff.2 fun ha => h.not_both ⟨hd, ha⟩
  obtain ⟨bytes, hbytes⟩ := getBytes_isSome (m := s.img) (b := 0) (n := imageBytes)
    fun a _ hlt => h.isSome_get_of_done hd (Nat.zero_add imageBytes ▸ hlt)
  refine ⟨bytes, emit_of_getBytes hd ha hbytes, getBytes_length hbytes, fun b hb => ?_⟩
  rw [Memory.get_of_getBytes hbytes hb, Nat.zero_add]

/-! ### The run of a pass (R170) -/

theorem asmRun_of_flag {s : State} (h : s.done = true ∨ s.abort = true) (n : Nat) :
    asmRun n s = .next s := by
  cases n with
  | zero => rfl
  | succ n => rcases h with h | h <;> simp [asmRun, h]

theorem asmRun_succ {s : State} (ha : s.abort = false) (hd : s.done = false) (n : Nat) :
    asmRun (n + 1) s = match step s with
      | .next t => asmRun n t
      | .fault f => .fault f
      | .refused r => .refused r := by
  simp only [asmRun, ha, hd]
  rfl

theorem State.Inv.enabled {s : State} (h : s.Inv) (ha : s.abort = false) (hd : s.done = false) :
    s.enabled = true := by
  have hne : s.seq ≠ slotCount := fun hs => by simp [h.done_iff.2 hs] at hd
  have hlt : s.seq < 882 := lt_of_le_of_ne h.seq_le hne
  simp [State.enabled, ha, hd, hlt]

/-- A run with as many steps as there are slots left ends with a flag set, in a state that has what every
step from a good state keeps. -/
theorem asmRun_ends {P : State → Prop} (hinv : ∀ s, P s → s.Inv)
    (hstep : ∀ s, P s → s.abort = false → s.done = false → ∃ t, step s = .next t ∧ P t)
    {n : Nat} {s : State} (hs : P s) (hn : slotCount ≤ s.seq + n) :
    ∃ t, asmRun n s = .next t ∧ P t ∧ (t.done = true ∨ t.abort = true) := by
  induction n generalizing s with
  | zero => exact ⟨s, rfl, hs, .inl ((hinv s hs).done_iff.2 (le_antisymm (hinv s hs).seq_le hn))⟩
  | succ n ih =>
    by_cases hflag : s.done = true ∨ s.abort = true
    · exact ⟨s, asmRun_of_flag hflag _, hs, hflag⟩
    simp only [not_or, Bool.not_eq_true] at hflag
    obtain ⟨hd, ha⟩ := hflag
    obtain ⟨t, ht, hPt⟩ := hstep s hs ha hd
    simp only [asmRun_succ ha hd, ht]
    by_cases hab : t.abort = true
    · exact ⟨t, asmRun_of_flag (.inr hab) n, hPt, .inr hab⟩
    · have hseq := (seqCountsCompletedSteps.2.1 s t ht).1
      rw [if_neg hab] at hseq
      exact ih hPt (by omega)

/-- A pass under a configuration of this hardware ends with a flag set. -/
theorem asmRun_resetWith {c : Cfg} (h : c.wf = true) :
    ∃ t, asmRun slotCount (State.resetWith c) = .next t ∧ t.Inv ∧
      (t.done = true ∨ t.abort = true) := by
  refine asmRun_ends (fun _ hs => hs) (fun s hs ha hd => ?_) (resetWith_inv h) (Nat.le_add_left _ _)
  obtain ⟨t, ht⟩ := step_of_enabled (Cfg.stridesOk_of_wf hs.cfg_wf) (hs.enabled ha hd)
  exact ⟨t, ht, everyStepKeepsTheInvariant s t hs ht⟩

/-- Settles O47: DONE hands over the image and ABORT the record. -/
theorem everyPassEnds : Obligations.EveryPassEnds := by
  intro c h
  obtain ⟨t, hrun, hinv, hflag⟩ := asmRun_resetWith h
  refine ⟨⟨t, hrun, hflag⟩, ?_⟩
  cases ha : t.abort with
  | true => exact .inr ⟨t.abortRec, by simp [assemble, hrun, ha]⟩
  | false =>
    obtain ⟨bytes, hemit, hlen, -⟩ := emitGivesTheWholeImage t hinv (by simpa [ha] using hflag)
    exact .inl ⟨bytes, by simp [assemble, hrun, ha, hemit], hlen⟩

/-! ### The image of a pass (R174) -/

/-- The bytes of a slot's window whose program has the words `ws`. -/
def windowBytes (slot : SlotId) (ws : List Word) : List Byte :=
  (windowWords (window slot) ws).flatMap wordBytes

/-- The windows of the slot numbers below `n`, one after another (R161, R174). -/
def windowsBelow (wordsOf : SlotId → List Word) (n : Nat) : List Byte :=
  (List.range n).flatMap fun k =>
    match order k with
    | some slot => windowBytes slot (wordsOf slot)
    | none => []

theorem windowsBelow_succ {wordsOf : SlotId → List Word} {n : Nat} {slot : SlotId}
    (ho : order n = some slot) :
    windowsBelow wordsOf (n + 1) = windowsBelow wordsOf n ++ windowBytes slot (wordsOf slot) := by
  simp [windowsBelow, List.range_succ, ho]

@[simp] theorem wordBytes_length (w : Word) : (wordBytes w).length = 4 := rfl

theorem flatMap_wordBytes_length (ws : List Word) : (ws.flatMap wordBytes).length = 4 * ws.length := by
  simp [List.length_flatMap, Nat.mul_comm]

/-- Byte `j` of a list of words is byte `j % 4` of word `j / 4` (R52). -/
theorem flatMap_wordBytes_getElem? (ws : List Word) (j : Nat) :
    (ws.flatMap wordBytes)[j]? = ws[j / 4]?.map fun w => wordByte w (j % 4) := by
  induction ws generalizing j with
  | nil => simp
  | cons w ws ih =>
    rw [List.flatMap_cons]
    by_cases hj : j < 4
    · rw [List.getElem?_append_left hj, wordBytes_getElem? hj, Nat.div_eq_of_lt hj,
        Nat.mod_eq_of_lt hj]
      rfl
    · have hdiv : j / 4 = (j - 4) / 4 + 1 := by omega
      have hmod : (j - 4) % 4 = j % 4 := by omega
      rw [List.getElem?_append_right (Nat.le_of_not_lt hj), wordBytes_length, ih, hdiv, hmod,
        List.getElem?_cons_succ]

/-- The windows below a slot number are as many bytes as lie below its start. -/
theorem windowsBelow_length {c : Cfg} (hs : c.stridesOk = true) {wordsOf : SlotId → List Word}
    (hfit : ∀ slot, (wordsOf slot).length ≤ window slot) {n : Nat} (hn : n ≤ slotCount) :
    (windowsBelow wordsOf n).length = 4 * slotStart c n := by
  induction n with
  | zero => simp [windowsBelow, slotStart_zero hs]
  | succ n ih =>
    obtain ⟨slot, ho⟩ := Option.isSome_iff_exists.1 ((order_isSome_iff n).2 hn)
    rw [windowsBelow_succ ho, List.length_append, ih (Nat.le_of_succ_le hn), windowBytes,
      flatMap_wordBytes_length, windowWords_length (hfit slot), slotStart_succ hs ho, Nat.mul_add]

/-- The states of a pass under `c` without an abort, when the program of each slot has the words
`wordsOf slot`: the image holds the windows below SEQ. -/
structure PlacedBelow (c : Cfg) (wordsOf : SlotId → List Word) (s : State) : Prop where
  inv : s.Inv
  cfg : s.cfg = c
  rev : revOf s = c.rev
  abort : s.abort = false
  get : ∀ b, b < 4 * slotStart c s.seq → s.img.get b = (windowsBelow wordsOf s.seq)[b]?

theorem placedBelow_resetWith {c : Cfg} (h : c.wf = true) (wordsOf : SlotId → List Word) :
    PlacedBelow c wordsOf (State.resetWith c) where
  inv := resetWith_inv h
  cfg := rfl
  rev := rfl
  abort := rfl
  get b hb := by
    have h0 : slotStart c (State.resetWith c).seq = 0 := slotStart_zero (Cfg.stridesOk_of_wf h)
    omega

/-- Placing the words of the slot at SEQ extends the windows below SEQ by the slot's window. -/
theorem get_of_wrote {c : Cfg} (hs : c.stridesOk = true) {wordsOf : SlotId → List Word}
    (hfit : ∀ slot, (wordsOf slot).length ≤ window slot) {n : Nat} {slot : SlotId}
    (ho : order n = some slot) {s t : State}
    (hw : Wrote (base c slot) (windowWords (window slot) (wordsOf slot)) s t)
    (hget : ∀ b, b < 4 * slotStart c n → s.img.get b = (windowsBelow wordsOf n)[b]?) (b : Nat)
    (hb : b < 4 * slotStart c (n + 1)) : t.img.get b = (windowsBelow wordsOf (n + 1))[b]? := by
  have hlen := windowsBelow_length hs hfit (lt_of_order ho).le
  have hstart := slotStart_of_order ho c
  have hnext := slotStart_succ hs ho
  rw [hw.get, windowsBelow_succ ho, windowWords_length (hfit slot)]
  by_cases hlow : b < 4 * slotStart c n
  · rw [if_neg (by omega), List.getElem?_append_left (hlen ▸ hlow), hget b hlow]
  · have hdiv : (b - 4 * base c slot) / 4 = b / 4 - base c slot := by omega
    have hmod : (b - 4 * base c slot) % 4 = b % 4 := by omega
    rw [if_pos (by omega), List.getElem?_append_right (by omega), hlen, hstart, windowBytes,
      flatMap_wordBytes_getElem?, hdiv, hmod]

/-- When every program fits and encodes, each step extends the windows below SEQ, under the revision of the
pass (R172). -/
theorem placedBelow_step {c : Cfg} {wordsOf : SlotId → List Word}
    (hfit : ∀ slot rev, (programOf (build c slot rev c.dtInit)).length ≤ window slot)
    (henc : ∀ slot, encodeProgram c.jregBits (programOf (build c slot c.rev c.dtInit)) =
      .ok (wordsOf slot)) {s : State} (h : PlacedBelow c wordsOf s) (hd : s.done = false) :
    ∃ t, step s = .next t ∧ PlacedBelow c wordsOf t := by
  obtain ⟨-, -, slot, ho⟩ := State.enabled_iff.1 (h.inv.enabled h.abort hd)
  have hprog : programFor s slot = programOf (build c slot c.rev c.dtInit) := by
    rw [programFor, h.inv.rom_init, h.rev, h.cfg]
  have hlen : ∀ k, (wordsOf k).length ≤ window k := fun k =>
    encodeProgram_length (henc k) ▸ hfit k c.rev
  obtain ⟨u, hw, hstep⟩ := step_places h.inv h.abort hd ho (hprog ▸ hfit slot c.rev)
    (by rw [hprog, h.cfg]; exact henc slot)
  rw [h.cfg] at hw
  have hstrides : c.stridesOk = true := h.cfg ▸ Cfg.stridesOk_of_wf h.inv.cfg_wf
  have hseq : u.seq = s.seq := by rw [hw.rest]; rfl
  have hcfg : u.cfg = c := by rw [hw.rest]; exact h.cfg
  have hrev : revOf u = revOf s := by rw [hw.rest]; rfl
  refine ⟨_, hstep, everyStepKeepsTheInvariant _ _ h.inv hstep, hcfg, ?_, ?_, fun b hb => ?_⟩
  · exact (hrev.trans h.rev :)
  · rw [hw.rest]; exact h.abort
  · simp only [State.advance_seq, hseq] at hb ⊢
    exact get_of_wrote hstrides hlen ho hw h.get b hb

/-- Settles O48: each step of the pass extends the image by its window. -/
theorem imageIsTheConcatenationOfTheWindows : Obligations.ImageIsTheConcatenationOfTheWindows := by
  intro c wordsOf hwf hfit henc
  obtain ⟨t, hrun, ht, hflag⟩ := asmRun_ends (P := PlacedBelow c wordsOf) (fun _ h => h.inv)
    (fun _ h _ hd => placedBelow_step hfit henc h hd) (placedBelow_resetWith hwf wordsOf)
    (Nat.le_add_left slotCount _)
  have hd : t.done = true := by simpa [ht.abort] using hflag
  have hseq : t.seq = slotCount := ht.inv.done_iff.1 hd
  have hlen : (windowsBelow wordsOf slotCount).length = imageBytes := by
    rw [windowsBelow_length (Cfg.stridesOk_of_wf hwf)
      (fun slot => encodeProgram_length (henc slot) ▸ hfit slot c.rev) le_rfl, slotStart_slotCount]
    rfl
  have hget : ∀ b, b < imageBytes → t.img.get b = (windowsBelow wordsOf slotCount)[b]? := by
    simpa only [hseq, slotStart_slotCount, imageWords] using ht.get
  have hbytes : t.img.getBytes 0 imageBytes = some (windowsBelow wordsOf slotCount) :=
    hlen ▸ Memory.getBytes_of_get fun b hb => by rw [Nat.zero_add, hget b (hlen ▸ hb)]
  have himage : assemble c = .next (.image (windowsBelow wordsOf slotCount)) := by
    simp [assemble, hrun, ht.abort, emit_of_getBytes hd ht.abort hbytes]
  exact himage

/-! ### States that differ in what the host owns: the configuration and the sampled revision

A step reads the configuration through the layout of R89, the strides and the builders' programs alone, so
where these agree, two configurations step alike (`step_rehost`). -/

/-- The state with another configuration, and the sampled revision changed by `ρ`. -/
def State.rehost (c : Cfg) (ρ : Rev → Rev) (s : State) : State :=
  { s with cfg := c, revSample := ρ s.revSample }

@[simp] theorem State.rehost_wr (c : Cfg) (ρ : Rev → Rev) (s : State) : (s.rehost c ρ).wr = s.wr := rfl
@[simp] theorem State.rehost_done (c : Cfg) (ρ : Rev → Rev) (s : State) :
    (s.rehost c ρ).done = s.done := rfl
@[simp] theorem State.rehost_abort (c : Cfg) (ρ : Rev → Rev) (s : State) :
    (s.rehost c ρ).abort = s.abort := rfl
@[simp] theorem State.rehost_seq (c : Cfg) (ρ : Rev → Rev) (s : State) :
    (s.rehost c ρ).seq = s.seq := rfl
@[simp] theorem State.rehost_ws (c : Cfg) (ρ : Rev → Rev) (s : State) : (s.rehost c ρ).ws = s.ws := rfl
@[simp] theorem State.rehost_cfg (c : Cfg) (ρ : Rev → Rev) (s : State) : (s.rehost c ρ).cfg = c := rfl

@[simp] theorem State.rehost_rom (c : Cfg) (ρ : Rev → Rev) (s : State) :
    (s.rehost c ρ).rom = s.rom := rfl
@[simp] theorem State.rehost_enabled (c : Cfg) (ρ : Rev → Rev) (s : State) :
    (s.rehost c ρ).enabled = s.enabled := rfl

/-- An outcome with its next state changed by `f`. -/
def mapNext {σ φ ρ : Type} (f : σ → σ) : Host.Outcome σ φ ρ → Host.Outcome σ φ ρ
  | .next s => .next (f s)
  | .fault r => .fault r
  | .refused r => .refused r

theorem wordWrite_rehost (c : Cfg) (ρ : Rev → Rev) (a : Nat) (w : Word) (s : State) :
    wordWrite a w (s.rehost c ρ) = (wordWrite a w s).map (State.rehost c ρ) := by
  simp only [wordWrite, apply_ite (Except.map _)]
  rfl

theorem writeWords_rehost (c : Cfg) (ρ : Rev → Rev) (a : Nat) (ws : List Word) (s : State) :
    writeWords a ws (s.rehost c ρ) = (writeWords a ws s).map (State.rehost c ρ) := by
  induction ws generalizing a s with
  | nil => rfl
  | cons w ws ih =>
    simp only [writeWords, wordWrite_rehost]
    cases wordWrite a w s with
    | error e => rfl
    | ok t => exact ih (a + 1) t

theorem finish_rehost (c : Cfg) (ρ : Rev → Rev) (before t : State) :
    finish (before.rehost c ρ) (t.rehost c ρ) = mapNext (State.rehost c ρ) (finish before t) := by
  simp only [finish, apply_ite (mapNext _)]
  rfl

theorem advance_rehost {c : Cfg} {ρ : Rev → Rev} {s : State}
    (hrev : revOf (s.rehost c ρ) = ρ (revOf s)) :
    (s.rehost c ρ).advance = s.advance.rehost c ρ := by
  rw [State.advance, hrev]
  rfl

/-- The configurations agree in all that a step reads of them, when the revision is changed by `ρ`. -/
structure SameSteps (c c' : Cfg) (ρ : Rev → Rev) : Prop where
  jregBits : c'.jregBits = c.jregBits
  modeStride : c'.modeStride = c.modeStride
  opcodeStride : c'.opcodeStride = c.opcodeStride
  program : ∀ slot rev dt, programOf (build c' slot (ρ rev) dt) = programOf (build c slot rev dt)

section Rehost

variable {c' : Cfg} {ρ : Rev → Rev} {s : State} (h : SameSteps s.cfg c' ρ)
  (hrev : revOf (s.rehost c' ρ) = ρ (revOf s))

include h

theorem place_rehost (slot : SlotId) (ws : List Word) :
    place slot ws (s.rehost c' ρ) = (place slot ws s).map (State.rehost c' ρ) := by
  have hbase : base c' slot = base s.cfg slot := by
    cases slot <;> simp only [base, h.modeStride, h.opcodeStride]
  rw [place, place, State.rehost_cfg, hbase, writeWords_rehost]

include hrev

theorem programFor_rehost (slot : SlotId) : programFor (s.rehost c' ρ) slot = programFor s slot := by
  rw [programFor, hrev]
  exact h.program slot (revOf s) s.rom

theorem completeSlot_rehost (before : State) (slot : SlotId) :
    completeSlot (before.rehost c' ρ) slot (s.rehost c' ρ) =
      mapNext (State.rehost c' ρ) (completeSlot before slot s) := by
  simp only [completeSlot, State.rehost_ws, place_rehost h]
  cases hp : place slot s.ws s with
  | error e => cases e <;> rfl
  | ok u =>
    have hu : revOf (u.rehost c' ρ) = ρ (revOf u) := by rw [(writeWords_wrote hp).rest]; exact hrev
    simp only [Except.map, advance_rehost hu, State.rehost_seq, finish_rehost, apply_ite (mapNext _)]
    rfl

theorem step_rehost_of_order {slot : SlotId} (ha : s.abort = false) (hd : s.done = false)
    (ho : order s.seq = some slot) : step (s.rehost c' ρ) = mapNext (State.rehost c' ρ) (step s) := by
  have hprog := programFor_rehost h hrev slot
  have hcode : encodeProgram (s.rehost c' ρ).cfg.jregBits (programFor (s.rehost c' ρ) slot) =
      encodeProgram s.cfg.jregBits (programFor s slot) := by
    rw [hprog, State.rehost_cfg, h.jregBits]
  by_cases hl : window slot < (programFor s slot).length
  · rw [step_of_too_long ha hd ho hl, step_of_too_long (s := s.rehost c' ρ) ha hd ho (hprog ▸ hl), hprog]
    rfl
  rw [not_lt] at hl
  cases he : encodeProgram s.cfg.jregBits (programFor s slot) with
  | error e =>
    rw [step_of_encode_error ha hd ho hl he,
      step_of_encode_error (s := s.rehost c' ρ) ha hd ho (hprog ▸ hl) (hcode.trans he)]
    rfl
  | ok ws =>
    rw [step_eq_completeSlot ha hd ho hl he,
      step_eq_completeSlot (s := s.rehost c' ρ) ha hd ho (hprog ▸ hl) (hcode.trans he)]
    exact completeSlot_rehost (s := s.withWords ws) h hrev s slot

/-- Two states that differ in what the host owns step alike. -/
theorem step_rehost : step (s.rehost c' ρ) = mapNext (State.rehost c' ρ) (step s) := by
  cases ha : s.abort with
  | true => rw [step_of_abort ha, step_of_abort (s := s.rehost c' ρ) ha]; rfl
  | false =>
    cases hd : s.done with
    | true => rw [step_of_done ha hd, step_of_done (s := s.rehost c' ρ) ha hd]; rfl
    | false =>
      cases ho : order s.seq with
      | none => rw [step_of_no_slot ha hd ho, step_of_no_slot (s := s.rehost c' ρ) ha hd ho]; rfl
      | some slot => exact step_rehost_of_order h hrev ha hd ho

end Rehost

/-! ### The revision is sampled once (R172) -/

/-- A step that goes through keeps the revision of the pass as the sample. -/
theorem revSample_of_step {s t : State} (h : step s = .next t) (ha : t.abort = false) :
    t.revSample = revOf s := by
  obtain ⟨slot, -, -, -, ⟨-, rfl⟩ | ⟨-, e, k, -, rfl⟩ | ⟨-, ws, -, hc⟩⟩ := step_cases h
  · cases ha
  · cases ha
  have hadvance : ∀ u, place slot ws (s.withWords ws) = .ok u → revOf u = revOf s := fun u hp => by
    rw [(writeWords_wrote hp).rest]; rfl
  obtain ⟨a, -, rfl⟩ | ⟨u, hp, ⟨-, rfl⟩ | ⟨-, -, rfl⟩ | ⟨-, -, rfl⟩⟩ := hc
  · cases ha
  · exact hadvance u hp
  · exact hadvance u hp
  · cases ha

/-- Settles O35: after the first step REV is read no more, and the builders' rows do not hold it. -/
theorem revisionIsSampledOnce : Obligations.RevisionIsSampledOnce := by
  refine ⟨fun s t h ha => revSample_of_step h ha, fun s t r hseq h => ?_⟩
  have hsame : SameSteps s.cfg { s.cfg with rev := r } id := ⟨rfl, rfl, rfl, fun _ _ _ => rfl⟩
  have hrev : revOf (s.rehost { s.cfg with rev := r } id) = revOf s := by simp [revOf, hseq, State.rehost]
  have hcfg : t.cfg = s.cfg := (stepsKeepRomAndConfiguration.1 s t h).2
  rw [hcfg]
  exact (step_rehost hsame hrev).trans (congrArg (mapNext _) h)

/-! ### Passes under configurations that step alike (R172, R203) -/

/-- The revision of the pass changes as REV and its sample do. -/
theorem revOf_rehost {s : State} {c' : Cfg} {ρ : Rev → Rev} (hr : c'.rev = ρ s.cfg.rev) :
    revOf (s.rehost c' ρ) = ρ (revOf s) := by
  simp only [revOf, State.rehost, hr, apply_ite ρ]

/-- EMIT reads nothing that the host owns. -/
theorem emitFrom_rehost (c : Cfg) (ρ : Rev → Rev) (s : State) (b n : Nat) :
    emitFrom (s.rehost c ρ) b n = emitFrom s b n := by
  induction n generalizing b with
  | zero => rfl
  | succ n ih => simp only [emitFrom, ih]; rfl

theorem emit_rehost (c : Cfg) (ρ : Rev → Rev) (s : State) : emit (s.rehost c ρ) = emit s := by
  simp only [emit, emitFrom_rehost]
  rfl

section Pass

variable {c c' : Cfg} {ρ : Rev → Rev} (h : SameSteps c c' ρ) (hr : c'.rev = ρ c.rev)

include h hr

theorem asmRun_rehost (n : Nat) {s : State} (hc : s.cfg = c) :
    asmRun n (s.rehost c' ρ) = mapNext (State.rehost c' ρ) (asmRun n s) := by
  subst hc
  induction n generalizing s with
  | zero => rfl
  | succ n ih =>
    by_cases hflag : s.done = true ∨ s.abort = true
    · rw [asmRun_of_flag hflag, asmRun_of_flag (s := s.rehost c' ρ) hflag]
      rfl
    simp only [not_or, Bool.not_eq_true] at hflag
    obtain ⟨hd, ha⟩ := hflag
    rw [asmRun_succ ha hd, asmRun_succ (s := s.rehost c' ρ) ha hd, step_rehost h (revOf_rehost hr)]
    cases hs : step s with
    | next t =>
      have hcfg : t.cfg = s.cfg := (stepsKeepRomAndConfiguration.1 s t hs).2
      exact ih (hcfg ▸ h) (hcfg ▸ hr)
    | fault f => rfl
    | refused r => rfl

/-- A pass ends alike under configurations that step alike and hold the same descriptor table. -/
theorem assemble_eq_of_sameSteps (hdt : c'.dtInit = c.dtInit) : assemble c' = assemble c := by
  have hreset : State.resetWith c' = (State.resetWith c).rehost c' ρ := by
    simp [State.resetWith, State.rehost, hr, hdt]
  rw [assemble, hreset, asmRun_rehost h hr slotCount rfl, assemble]
  cases asmRun slotCount (State.resetWith c) with
  | next t =>
    simp only [mapNext, emit_rehost]
    rfl
  | fault f => rfl
  | refused r => rfl

end Pass

/-- A builder call whose rows answer the same under both revisions answers so. -/
theorem build_eq_of_rows {c : Cfg}
    (h : ∀ e, e ∈ c.build → answerFor e.answer .narrow = answerFor e.answer .wide)
    (slot : SlotId) (rev rev' : Rev) (dt : DescriptorTable) : build c slot rev dt = build c slot rev' dt := by
  simp only [build]
  split
  · rfl
  · next e he =>
    have hrow := h e (List.mem_of_find?_eq_some he)
    cases rev <;> cases rev' <;> simp [hrow]

/-- Settles O49: with REV and its sample both set to `r`, the builders answer as before. -/
theorem outcomeIgnoresAnUnreadRevision : Obligations.OutcomeIgnoresAnUnreadRevision := by
  intro c r h
  have hsame : SameSteps c { c with rev := r } fun _ => r :=
    ⟨rfl, rfl, rfl, fun slot rev dt => congrArg programOf (build_eq_of_rows h slot r rev dt)⟩
  exact assemble_eq_of_sameSteps hsame rfl rfl

/-! ### Labels go to the log alone (R164, R203, R264) -/

/-- A row of the builder function with its labels changed, as `relabel` changes every row. -/
def relabelRow (f : SlotId → String → String) (e : BuilderEntry) : BuilderEntry :=
  { e with answer := match e.answer with
      | .anyRev r => .anyRev (r.map (relabelResult (f e.slot)))
      | .perRev n w => .perRev (n.map (relabelResult (f e.slot))) (w.map (relabelResult (f e.slot))) }

theorem relabel_build (f : SlotId → String → String) (c : Cfg) :
    (relabel f c).build = c.build.map (relabelRow f) := rfl

theorem answerFor_relabelRow (f : SlotId → String → String) (e : BuilderEntry) (rev : Rev) :
    answerFor (relabelRow f e).answer rev = (answerFor e.answer rev).map (relabelResult (f e.slot)) := by
  obtain ⟨slot, table, answer⟩ := e
  cases answer with
  | anyRev r => rfl
  | perRev n w => cases rev <;> rfl

/-- Whether a row answers for a slot and a descriptor table (R200). -/
def answersSlot (slot : SlotId) (dt : DescriptorTable) (e : BuilderEntry) : Bool :=
  decide (e.slot = slot) && answersTable e dt

theorem build_eq_bind (c : Cfg) (slot : SlotId) (rev : Rev) (dt : DescriptorTable) :
    build c slot rev dt = (c.build.find? (answersSlot slot dt)).bind fun e => answerFor e.answer rev := by
  have hfind : c.build.find? (fun e => decide (e.slot = slot) && answersTable e dt) =
      c.build.find? (answersSlot slot dt) := rfl
  rw [build, hfind]
  cases c.build.find? (answersSlot slot dt) <;> rfl

/-- A relabelled builder answers the same result with its label changed. -/
theorem build_relabel (f : SlotId → String → String) (c : Cfg) (slot : SlotId) (rev : Rev)
    (dt : DescriptorTable) :
    build (relabel f c) slot rev dt = (build c slot rev dt).map (relabelResult (f slot)) := by
  have hrow : answersSlot slot dt ∘ relabelRow f = answersSlot slot dt := rfl
  rw [build_eq_bind, build_eq_bind, relabel_build, List.find?_map, hrow]
  cases he : c.build.find? (answersSlot slot dt) with
  | none => rfl
  | some e =>
    have hslot : e.slot = slot := by
      have hp := List.find?_some he
      simp only [answersSlot, Bool.and_eq_true, decide_eq_true_eq] at hp
      exact hp.1
    exact hslot ▸ answerFor_relabelRow f e rev

theorem sameSteps_relabel (f : SlotId → String → String) (c : Cfg) : SameSteps c (relabel f c) id where
  jregBits := rfl
  modeStride := rfl
  opcodeStride := rfl
  program slot rev dt := by
    rw [id, build_relabel]
    cases build c slot rev dt <;> rfl

/-- An entry of the log with its label changed. -/
def relabelEntry (f : SlotId → String → String) (e : SlotId × String) : SlotId × String :=
  (e.1, f e.1 e.2)

theorem labelOf_relabelResult (g : String → String) (r : Option BuildResult) :
    labelOf (r.map (relabelResult g)) = (labelOf r).map g := by
  cases r with
  | none => rfl
  | some r => simp only [Option.map_some, labelOf, relabelResult, apply_ite (Option.map g)]; rfl

theorem stepLabel_relabel (f : SlotId → String → String) (s : State) :
    stepLabel (s.rehost (relabel f s.cfg) id) = (stepLabel s).map (relabelEntry f) := by
  have hrev : revOf (s.rehost (relabel f s.cfg) id) = revOf s := revOf_rehost rfl
  have hlabel : ∀ slot, labelOf (build (relabel f s.cfg) slot (revOf s) s.rom) =
      (labelOf (build s.cfg slot (revOf s) s.rom)).map (f slot) := fun slot => by
    rw [build_relabel, labelOf_relabelResult]
  simp only [stepLabel, hrev, State.rehost_cfg, State.rehost_seq, State.rehost_rom,
    State.rehost_enabled, hlabel]
  cases s.enabled with
  | false => rfl
  | true =>
    cases order s.seq with
    | none => rfl
    | some slot => simp [relabelEntry, Function.comp_def]

theorem runLog_relabel (f : SlotId → String → String) (n : Nat) (s : State) :
    runLog n (s.rehost (relabel f s.cfg) id) = (runLog n s).map (relabelEntry f) := by
  induction n generalizing s with
  | zero => rfl
  | succ n ih =>
    have hstep : asmStep (s.rehost (relabel f s.cfg) id) = mapNext _ (asmStep s) :=
      step_rehost (sameSteps_relabel f s.cfg) (revOf_rehost rfl)
    rw [runLog, runLog, stepLabel_relabel, hstep, List.map_append]
    congr 1
    · cases stepLabel s <;> rfl
    cases hs : asmStep s with
    | next t =>
      have hcfg : t.cfg = s.cfg := (stepsKeepRomAndConfiguration.1 s t hs).2
      exact hcfg ▸ ih t
    | fault r => rfl
    | refused r => rfl

/-- Settles O53: programs, and so states, do not hold the labels. -/
theorem labelsGoToTheLogAlone : Obligations.LabelsGoToTheLogAlone := by
  refine ⟨fun s slot r he ho hb hp => stepLabel_eq_some_iff.2 ⟨he, ho, r, hb, hp, rfl⟩,
    fun s slot => stepLabel_of_empty_program, fun s he => by simp [stepLabel, he], fun c f => ⟨?_, ?_⟩⟩
  · exact assemble_eq_of_sameSteps (sameSteps_relabel f c) rfl rfl
  · exact runLog_relabel f slotCount (State.resetWith c)

end Sys2Proof.Machine

/-! Proofs about the builder interface (`spec/43_builder_interface.md` R200 to R228): which builder calls
may depend on the revision. The row that answers is chosen before the revision is looked at
(`build_eq_bind`), so a call depends on the revision only where that one row does. -/

namespace Sys2Proof.Machine

/-! ### Rows that do not read the revision (R228) -/

/-- The row that answers for a slot is a row of the configuration, and that slot's. -/
theorem row_of_find?_answersSlot {c : Cfg} {slot : SlotId} {dt : DescriptorTable} {e : BuilderEntry}
    (he : c.build.find? (answersSlot slot dt) = some e) : e ∈ c.build ∧ e.slot = slot := by
  have hp := List.find?_some he
  simp only [answersSlot, Bool.and_eq_true, decide_eq_true_eq] at hp
  exact ⟨List.mem_of_find?_eq_some he, hp.1⟩

/-- Under an allowed configuration a row of a slot that may not read the revision answers the same under
both: it has one answer, or two equal ones. -/
theorem answerFor_narrow_eq_wide {c : Cfg} (h : c.buildOk = true) {e : BuilderEntry} (he : e ∈ c.build)
    (hslot : e.slot.mayReadRev = false) : answerFor e.answer .narrow = answerFor e.answer .wide := by
  obtain ⟨slot, table, answer⟩ := e
  cases answer with
  | anyRev r => rfl
  | perRev n w =>
    have hrow : (slot.mayReadRev || n == w) = true := List.all_eq_true.1 h _ he
    rw [hslot, Bool.false_or] at hrow
    exact eq_of_beq hrow

/-- Settles O36: both calls are answered by the same row, which is a row of the slot and so does not read
the revision. -/
theorem otherBuildersIgnoreTheRevision : Obligations.OtherBuildersIgnoreTheRevision := by
  intro c slot dt h hslot
  rw [build_eq_bind, build_eq_bind]
  cases he : c.build.find? (answersSlot slot dt) with
  | none => rfl
  | some e =>
    obtain ⟨hmem, rfl⟩ := row_of_find?_answersSlot he
    exact answerFor_narrow_eq_wide h hmem hslot

end Sys2Proof.Machine

/-! Proofs about aborts (`spec/60_exceptions.md` R250 to R258): `Raises` lists what a step can raise, each
with its record, and every step that ends with ABORT = 1 is one of them (`step_raises`). -/

namespace Sys2Proof.Machine

/-! ### The first micro-op that does not encode (R121, R251) -/

/-- ENC.PROG fails at the micro-op after a well-formed beginning when that one does not encode. -/
theorem encodeProgram_of_first_bad {layout : Vector Word 64} {before after : List Instr} {i : Instr}
    {e : RangeFailure} (hb : programWf before = true) (he : encode layout i = .error e) :
    encodeProgram layout (before ++ i :: after) = .error (e, before.length) := by
  obtain ⟨-, hfail, -⟩ := encProgIsElementwise layout (before ++ i :: after)
  refine (hfail e before.length).2 ⟨by simp [he], fun j hj => ?_⟩
  have hwf : before[j].wf = true := List.all_eq_true.1 hb _ (List.getElem_mem hj)
  obtain ⟨w, hw⟩ := (encode_ok_iff_wf layout before[j]).2 hwf
  exact ⟨w, by simp [List.getElem?_append_left, hj, hw]⟩

/-- The position ENC.PROG fails at is that of a micro-op of the program, and the failure is its own. -/
theorem exists_instr_of_encodeProgram_error {layout : Vector Word 64} {p : List Instr}
    {e : RangeFailure} {k : Nat} (h : encodeProgram layout p = .error (e, k)) :
    ∃ i, p[k]? = some i ∧ encode layout i = .error e := by
  obtain ⟨-, hfail, -⟩ := encProgIsElementwise layout p
  obtain ⟨hk, -⟩ := (hfail e k).1 h
  rwa [List.getElem?_map, Option.map_eq_some_iff] at hk

/-- An encode operation fails on an immediate (R118), never on a length. -/
theorem field_ne_length_of_encode_error {layout : Vector Word 64} {i : Instr} {e : RangeFailure}
    (h : encode layout i = .error e) : e.field ≠ .length := by
  cases i with
  | alur | jr | nop => cases h
  | alui | ldc | ji =>
    simp only [encode, encAlui, encLdc, encJi] at h
    split at h <;> cases h
    exact nofun

/-- Settles O28: ENC.PROG fails at the first bad micro-op, and its failure is raised before any word is
placed. -/
theorem firstBadImmediateAborts : Obligations.FirstBadImmediateAborts := by
  intro s slot before after i e ha hd ho hp hl hb he
  have hprog : encodeProgram s.cfg.jregBits (programFor s slot) = .error (e, before.length) :=
    hp ▸ encodeProgram_of_first_bad hb he
  exact ⟨_, step_of_encode_error ha hd ho hl hprog, abortedFrom_raise .., rfl, rfl⟩

/-! ### What a step can raise (R250 to R255) -/

/-- `t` is the state before the step, `s`, with an abort of the slot at SEQ raised: the length check
(R168, R252), an immediate (R251), a word written before (R53), or a word never written (R171), whose
record leaves the slot open (R255). -/
inductive Raises (s : State) (slot : SlotId) : State → Prop where
  | tooLong :
    Raises s slot (s.raise .layoutMismatch (some slot) none .length (programFor s slot).length)
  | immediate {e : RangeFailure} {k : Nat}
    (he : encodeProgram s.cfg.jregBits (programFor s slot) = .error (e, k)) :
    Raises s slot (s.raise .encodingRange (some slot) (some k) e.field e.value)
  | overlap (a : Nat) : Raises s slot (s.raise .layoutMismatch (some slot) none .overlap a)
  | unwritten (a : Nat) (hlast : s.seq + 1 = slotCount) :
    Raises s slot (s.raise .layoutMismatch none none .overlap a)

/-- A step that ends with ABORT = 1 was enabled and has raised one of these. -/
theorem step_raises {s t : State} (h : step s = .next t) (ht : t.abort = true) :
    ∃ slot, order s.seq = some slot ∧ s.abort = false ∧ Raises s slot t := by
  obtain ⟨slot, ho, ha, -, hc⟩ := step_cases h
  refine ⟨slot, ho, ha, ?_⟩
  obtain ⟨-, rfl⟩ | ⟨-, e, k, he, rfl⟩ | ⟨-, ws, -, ⟨a, -, rfl⟩ | ⟨u, hp, hend⟩⟩ := hc
  · exact .tooLong
  · exact .immediate he
  · exact .overlap a
  · have hu : u.abort = false := by rw [(writeWords_wrote hp).rest]; exact ha
    obtain ⟨-, rfl⟩ | ⟨-, -, rfl⟩ | ⟨hlast, -, rfl⟩ := hend
    · simp [hu] at ht
    · simp [hu] at ht
    · exact .unwritten _ hlast

namespace Raises

variable {s t : State} {slot : SlotId} (h : Raises s slot t)

include h

theorem frame : sameButEncoding s t ∧ t.ws = [] := by
  cases h <;> exact ⟨(abortedFrom_raise ..).1, rfl⟩

theorem record_slot : t.abortRec.slot = slot ∨
    s.seq + 1 = slotCount ∧ t.abortRec.cause = .layoutMismatch ∧ t.abortRec.field = .overlap := by
  cases h with
  | tooLong | immediate _ | overlap _ => exact .inl rfl
  | unwritten _ hlast => exact .inr ⟨hlast, rfl, rfl⟩

theorem record_immediate (hc : t.abortRec.cause = .encodingRange) :
    ∃ i, (programFor s slot)[t.abortRec.opIndex]? = some i ∧
      encode s.cfg.jregBits i = .error ⟨t.abortRec.field, t.abortRec.value⟩ := by
  cases h with
  | immediate he => exact exists_instr_of_encodeProgram_error he
  | tooLong | overlap _ | unwritten _ _ => cases hc

theorem record_length (hf : t.abortRec.field = .length) :
    t.abortRec.value = (programFor s slot).length := by
  cases h with
  | tooLong => rfl
  | immediate he =>
    obtain ⟨i, -, hi⟩ := exists_instr_of_encodeProgram_error he
    exact absurd hf (field_ne_length_of_encode_error hi)
  | overlap _ | unwritten _ _ => cases hf

end Raises

/-- Settles O31: what each raise leaves and records; ABORT = 1 disables the step and EMIT. -/
theorem abortIsPrecise : Obligations.AbortIsPrecise := by
  intro s t h ht
  obtain ⟨slot, ho, ha, hr⟩ := step_raises h ht
  obtain ⟨hsame, hws⟩ := hr.frame
  refine ⟨hsame, ha, hws, ?_, fun slot' ho' => ?_, fun u => ?_, fun bytes => ?_⟩
  · exact hr.record_slot.imp_left fun hslot => by rw [hslot, ho]
  · obtain rfl : slot = slot' := Option.some.inj (ho.symm.trans ho')
    exact ⟨hr.record_immediate, hr.record_length⟩
  · rw [step_of_abort ht]
    exact nofun
  · rw [emit_refused (.inr ht)]
    exact nofun

end Sys2Proof.Machine

/-! Proofs about reset and configuration (`spec/70_reset_and_hazards.md` R280 to R283): what a reset leaves
of a pass, and when the host may change the configuration. -/

namespace Sys2Proof.Machine

/-! ### Reset at any time (R280) -/

/-- A reset clears every written flag, as the reset under the same configuration does (R26). -/
@[simp] theorem written_hostReset (s : State) (a : Nat) : s.hostReset.written a = false :=
  written_resetWith s.cfg a

/-- A reset leaves no byte of the image with a value (R26). -/
theorem get_hostReset_img (s : State) (b : Nat) : s.hostReset.img.get b = none := by
  rw [State.hostReset_img, Memory.get_nil]

/-- A reset begins the order anew, at the first register slot (R161). -/
theorem order_hostReset_seq (s : State) : order s.hostReset.seq = some (.rr 0) :=
  order_of_slotNumber (State.hostReset_seq s).symm

/-- Settles O41: a reset empties what the pass wrote and starts the order again; the ROM and the
configuration are the host's and stay. -/
theorem hostResetDiscardsThePass : Obligations.HostResetDiscardsThePass := fun s =>
  ⟨get_hostReset_img s, written_hostReset s, State.hostReset_done s, State.hostReset_abort s,
    State.hostReset_seq s, State.hostReset_rom s, State.hostReset_cfg s, order_hostReset_seq s⟩

/-! ### Configuration between passes (R142, R283) -/

/-- Between passes the host's configuration is taken, and DT.INIT runs with it. -/
theorem configure_between_passes {s : State} (c : Cfg)
    (h : s.seq = 0 ∨ s.done = true ∨ s.abort = true) :
    configure c s = .next (initRom { s with cfg := c }) :=
  if_pos (by simpa [or_assoc] using h)

/-- In the middle of a pass a configuration is refused. -/
theorem configure_in_pass {s : State} (c : Cfg) (hseq : s.seq ≠ 0) (hdone : s.done = false)
    (habort : s.abort = false) : configure c s = .refused .configurationInPass :=
  if_neg (by simp [hseq, hdone, habort])

/-- Settles O46: between passes DT.INIT stores the entries of the new configuration, which lookups read;
in the middle of a pass `configure` refuses. -/
theorem configurationOnlyBetweenPasses : Obligations.ConfigurationOnlyBetweenPasses := by
  refine fun s c => ⟨fun hbetween => ?_, fun ⟨hseq, hdone, habort⟩ => ?_⟩
  · exact ⟨initRom { s with cfg := c }, configure_between_passes c hbetween, rfl,
      lookupGivesTheInitialContents { s with cfg := c }⟩
  · exact configure_in_pass c hseq hdone habort

end Sys2Proof.Machine
